-- ==== Sys2Proof/Word.lean ====
section
/-! DEFINITION. The two bit-vector types the spec treats as bits: the byte of data memory and the 32-bit register word
(00_scope.md R11). -/

namespace Sys2Proof

/-- A byte: an unsigned integer 0 to 255 (00_scope.md R11). -/
abbrev Byte := BitVec 8

/-- A word: a 32-bit register value, bit 0 the least significant (00_scope.md R11). -/
abbrev Word := BitVec 32

end Sys2Proof
end

