-- ==== Sys2Proof/Config.lean ====
section
/-! DEFINITION. What an implementation or its platform fixes (00_scope.md R6 to R9; 10_state.md R25; 20_memory.md R38): the block
size, the address width, the block primitive, the given transforms of CFB, OFB and CTR, and the shape in which the platform says
which memory exists. -/

namespace Sys2Proof

/-- The block size in bytes, 16 for this hardware (00_scope.md R6). -/
abbrev Config.B : Nat := 16

/-- The width of an address and of a length in bits (00_scope.md R8). -/
abbrev Config.AW : Nat := 32

/-- A block: exactly `B` bytes, byte 0 first; never read as one number (00_scope.md R11). -/
abbrev Block := Vector Byte Config.B

/-- The direction of an instance (30_encoding.md R51). -/
inductive Direction where
  | encrypt
  | decrypt
deriving DecidableEq, Repr

/-- The three modes whose transform is given from outside (00_scope.md R9). -/
inductive ExtMode where
  | cfb
  | ofb
  | ctr
deriving DecidableEq, Repr

/-- The closed set of modes (30_encoding.md R50). -/
inductive Mode where
  | ecb
  | cbc
  | ext (m : ExtMode)
deriving DecidableEq, Repr

/-- The value of EXT. DESIGN CHOICE (log 8): the opaque type `ExtState_m` of 00_scope.md R9 is written as a byte string, one type
for the three modes, so that State is plain data; safe, since nothing is assumed of the string. -/
abbrev ExtState := List Byte

/-- What is fixed for a run and is not the engine's: the block primitive under the loaded key (00_scope.md R7), the transforms of CFB,
OFB and CTR (00_scope.md R9), and the free values that CHAIN, WORK and EXT read as while they hold no value (10_state.md R26; log 7). -/
structure Collaborators where
  /-- `Enc` (R7). -/
  enc : Block → Block := id
  /-- `Dec` (R7). -/
  dec : Block → Block := id
  /-- `ext_init_m(Enc, Dec, dir, iv)` (42_mode_selector.md R93). -/
  extInit : ExtMode → (Block → Block) → (Block → Block) → Direction → Block → ExtState := fun _ _ _ _ _ => []
  /-- `ext_xform_m(s, bytes)` (42_mode_selector.md R94). -/
  extXform : ExtMode → ExtState → List Byte → ExtState × List Byte := fun _ s x => (s, x)
  /-- Free value: what CHAIN reads as while it holds no value. -/
  unwrittenChain : Block
  /-- Free value: what WORK reads as while it holds no value. -/
  unwrittenWork : Block
  /-- Free value: what EXT reads as while it holds no value. -/
  unwrittenExt : ExtState

/-- Collaborators with the named properties the spec lets a model assume, and no other (00_scope.md R7; 42_mode_selector.md R94 to
R96). `PRIM_DET` and `EXT_DET` hold because the fields are functions. The default values only show that the properties can be met
together: nothing can be proved from them about `Config.given`. -/
structure Given extends Collaborators where
  /-- `PRIM_INV`. -/
  dec_enc : ∀ x, dec (enc x) = x := by intro x; rfl
  /-- With `PRIM_INV`, `PRIM_PERM`: the primitive is a bijection. -/
  enc_dec : ∀ y, enc (dec y) = y := by intro y; rfl
  /-- `EXT_LEN`. -/
  ext_len : ∀ m s x, (extXform m s x).2.length = x.length := by intro m s x; rfl
  /-- `EXT_STREAM`. -/
  ext_stream : ∀ m s x y,
      extXform m s (x ++ y) =
        ((extXform m (extXform m s x).1 y).1, (extXform m s x).2 ++ (extXform m (extXform m s x).1 y).2) := by
    intro m s x y; rfl
  /-- `EXT_SYM`: OFB and CTR ignore the direction. -/
  ext_sym : ∀ m d d' iv, m ≠ .cfb → extInit m enc dec d iv = extInit m enc dec d' iv := by intro m d d' iv _; rfl
  /-- `EXT_INV` for CFB, and with `EXT_SYM` the self-inverse keystream of OFB and CTR. -/
  ext_inv : ∀ m iv x,
      (extXform m (extInit m enc dec .decrypt iv) (extXform m (extInit m enc dec .encrypt iv) x).2).2 = x := by
    intro m iv x; rfl
deriving Inhabited

/-- The primitive under the loaded key and the given transforms of this hardware, fixed for a run (10_state.md R25;
70_reset_and_hazards.md R126; log 9), with the free values of log 7. Nothing is known of them but `Given`'s properties, and nothing at
all of the free values. -/
opaque Config.given : Given

/-- Whether the engine reads or writes (the `kind` of 20_memory.md R38). -/
inductive Access where
  | read
  | write
deriving DecidableEq, Repr

/-- One window of the platform's memory map, the plain-data form of `admits` (20_memory.md R38; log 4). A window flagged `device`
has read side effects or writes that are not plain stores (93_implementation_defined.md U4; log 5). -/
structure Region where
  base : Nat
  size : Nat
  readable : Bool
  writable : Bool
  device : Bool
deriving DecidableEq, Repr

/-- One operation of the host (70_reset_and_hazards.md R130; 10_state.md R22). A host program is a list of these (R129). -/
inductive HostOp where
  /-- `r[n] <- v`; a write of register 0 starts the command `v` (10_state.md R22). -/
  | write (n : Nat) (v : Word)
  /-- `r[n]` (10_state.md R22). -/
  | read (n : Nat)
  /-- The host stores a byte in data memory between commands (R130). -/
  | store (a : Word) (b : Byte)
  /-- The host loads a byte of data memory between commands (R130). -/
  | load (a : Word)
  /-- The external reset, between commands (R116). -/
  | reset
  /-- `r[0] <- w` seen at the finer level of 41_cbc_block_ops.md R81: a CRYPT then walks its phases, one a step, while the host has
  no move (00_scope.md R10; log 3). -/
  | walk (w : Word)
  /-- `r[0] <- w`, and the external reset arrives after the command's first `k` byte writes (R116; log 11). -/
  | resetDuring (w : Word) (k : Nat)
deriving DecidableEq, Repr

/-- What a read by the host returned (70_reset_and_hazards.md R130). -/
inductive HostValue where
  | reg (n : Nat) (v : Word)
  | byte (a : Word) (b : Byte)
deriving DecidableEq, Repr

end Sys2Proof
end

