-- ==== Sys2Proof/Syntax.lean ====
section
/-! DEFINITION. The commands of CBCENG, one constructor per row of spec/opcode_table.json (30_encoding.md R49, R54). A command word
carries no operand but MODE and DIR; the others are in ARG0 to ARG3 (R52, R53). -/

namespace Sys2Proof

/-- The legal commands (30_encoding.md R54). -/
inductive Instr where
  | constructEcb (dir : Direction)
  | constructCbc (dir : Direction)
  | constructCfb (dir : Direction)
  | constructOfb (dir : Direction)
  | constructCtr (dir : Direction)
  | blksize
  | crypt
deriving DecidableEq, Repr

end Sys2Proof
end

