-- ==== Sys2Proof/WellFormed.lean ====
section
/-! DEFINITION. What the spec asks of a term before it has a meaning: of a command, of a host operation and of a window of the
platform's memory map. -/

namespace Sys2Proof

/-- Every term of `Instr` is well formed: its only operand is a direction, a closed set (30_encoding.md R50 to R53). The ARG operands
are checked by the command itself (40_commands.md R61). -/
def Instr.wellFormed : Instr → Bool
  | .constructEcb _ => true
  | .constructCbc _ => true
  | .constructCfb _ => true
  | .constructOfb _ => true
  | .constructCtr _ => true
  | .blksize => true
  | .crypt => true

/-- A register access names one of the eight registers (10_state.md R22; 93_implementation_defined.md U6). -/
def HostOp.wellFormed : HostOp → Bool
  | .write n _ => decide (n ≤ 7)
  | .read n => decide (n ≤ 7)
  | .store _ _ => true
  | .load _ => true
  | .reset => true
  | .walk _ => true
  | .resetDuring _ _ => true

/-- A window lies inside the address space (20_memory.md R34, R37). -/
def Region.wellFormed (r : Region) : Bool := decide (r.base + r.size ≤ 2 ^ Config.AW)

end Sys2Proof
end

