-- ==== Sys2Proof/Decode.lean ====
section
/-! DEFINITION. The command word (30_encoding.md R48 to R58): its fields, the decoder, the encoder, and the twelve legal words of
R54 written out. -/

namespace Sys2Proof

/-- What a word is (30_encoding.md R58): a legal command, a CONSTRUCT with a reserved MODE value (R55), or illegal (R56). -/
inductive Decoded where
  | instr (i : Instr)
  | reservedMode
  | illegal
deriving DecidableEq, Repr

/-- Bits 31:8, must be zero (R48). -/
def wordMbz (w : Word) : BitVec 24 := w.extractLsb' 8 24

/-- Bits 7:5, MODE (R48). -/
def wordMode (w : Word) : BitVec 3 := w.extractLsb' 5 3

/-- Bit 4, DIR (R48). -/
def wordDir (w : Word) : BitVec 1 := w.extractLsb' 4 1

/-- Bits 3:0, OP (R48). -/
def wordOp (w : Word) : BitVec 4 := w.extractLsb' 0 4

/-- The number of a direction (R51). -/
def directionBits : Direction → BitVec 1
  | .encrypt => 0#1
  | .decrypt => 1#1

/-- The direction a bit stands for (R51). -/
def directionOfBits (b : BitVec 1) : Direction := if b = 0#1 then .encrypt else .decrypt

/-- The number of a mode (R50). -/
def modeBits : Mode → BitVec 3
  | .ecb => 0#3
  | .cbc => 1#3
  | .ext .cfb => 2#3
  | .ext .ofb => 3#3
  | .ext .ctr => 4#3

/-- The mode a number stands for; 5, 6 and 7 are reserved (R50). -/
def modeOfBits (b : BitVec 3) : Option Mode :=
  if b = 0#3 then some .ecb
  else if b = 1#3 then some .cbc
  else if b = 2#3 then some (.ext .cfb)
  else if b = 3#3 then some (.ext .ofb)
  else if b = 4#3 then some (.ext .ctr)
  else none

/-- The CONSTRUCT command of a mode and a direction (R54). -/
def constructInstr (m : Mode) (d : Direction) : Instr :=
  match m with
  | .ecb => .constructEcb d
  | .cbc => .constructCbc d
  | .ext .cfb => .constructCfb d
  | .ext .ofb => .constructOfb d
  | .ext .ctr => .constructCtr d

/-- Decoding, a total function of the 32 bits alone (R57, R58). -/
def decode (w : Word) : Decoded :=
  if wordMbz w ≠ 0#24 then .illegal
  else if wordOp w = 1#4 then
    match modeOfBits (wordMode w) with
    | some m => .instr (constructInstr m (directionOfBits (wordDir w)))
    | none => .reservedMode
  else if wordOp w = 2#4 then
    if wordMode w = 0#3 ∧ wordDir w = 0#1 then .instr .blksize else .illegal
  else if wordOp w = 3#4 then
    if wordMode w = 0#3 ∧ wordDir w = 0#1 then .instr .crypt else .illegal
  else .illegal

/-- The decoder on a row of spec/opcode_table.json: one 32-bit word, bit 0 the least significant. -/
def decodeTableWord (nbits w : Nat) : Option Instr :=
  if nbits ≤ 32 ∧ w < 2 ^ 32 then
    match decode (BitVec.ofNat 32 w) with
    | .instr i => some i
    | .reservedMode => none
    | .illegal => none
  else none

/-- A word from its fields, in the order of R48. -/
def commandWord (mode : BitVec 3) (dir : BitVec 1) (op : BitVec 4) : Word := 0#24 ++ mode ++ dir ++ op

/-- The word of a command (R54). -/
def encode : Instr → Word
  | .constructEcb d => commandWord (modeBits .ecb) (directionBits d) 1#4
  | .constructCbc d => commandWord (modeBits .cbc) (directionBits d) 1#4
  | .constructCfb d => commandWord (modeBits (.ext .cfb)) (directionBits d) 1#4
  | .constructOfb d => commandWord (modeBits (.ext .ofb)) (directionBits d) 1#4
  | .constructCtr d => commandWord (modeBits (.ext .ctr)) (directionBits d) 1#4
  | .blksize => commandWord 0#3 0#1 2#4
  | .crypt => commandWord 0#3 0#1 3#4

/-! The twelve legal words, as R54's table writes them. -/

theorem decode_word_ecb_enc : decode 0x00000001#32 = .instr (.constructEcb .encrypt) := by decide
theorem decode_word_ecb_dec : decode 0x00000011#32 = .instr (.constructEcb .decrypt) := by decide
theorem decode_word_cbc_enc : decode 0x00000021#32 = .instr (.constructCbc .encrypt) := by decide
theorem decode_word_cbc_dec : decode 0x00000031#32 = .instr (.constructCbc .decrypt) := by decide
theorem decode_word_cfb_enc : decode 0x00000041#32 = .instr (.constructCfb .encrypt) := by decide
theorem decode_word_cfb_dec : decode 0x00000051#32 = .instr (.constructCfb .decrypt) := by decide
theorem decode_word_ofb_enc : decode 0x00000061#32 = .instr (.constructOfb .encrypt) := by decide
theorem decode_word_ofb_dec : decode 0x00000071#32 = .instr (.constructOfb .decrypt) := by decide
theorem decode_word_ctr_enc : decode 0x00000081#32 = .instr (.constructCtr .encrypt) := by decide
theorem decode_word_ctr_dec : decode 0x00000091#32 = .instr (.constructCtr .decrypt) := by decide
theorem decode_word_blksize : decode 0x00000002#32 = .instr .blksize := by decide
theorem decode_word_crypt : decode 0x00000003#32 = .instr .crypt := by decide

end Sys2Proof
end

