-- ==== Sys2Proof/Machine/State.lean ====
section
/-! DEFINITION. The state of CBCENG (10_state.md R13), of the platform around it and of the host; the reasons a step can stop; and
the state after reset (10_state.md R32). -/

namespace Sys2Proof.Machine

/-- Completion codes (60_exceptions.md R101). -/
inductive Code where
  | ok
  | invalidKeyOrIV
  | invalidLength
  | bufferTooSmall
  | unsupportedMode
  | notConstructed
  | illegalCommand
deriving DecidableEq, Repr

/-- The phases of a running CRYPT (41_cbc_block_ops.md R81). `block` is the model's one phase for a block of a mode other than CBC,
for which R81 names none. DESIGN CHOICE (log 3), safe. -/
inductive Phase where
  | check
  | xor
  | cipher
  | store
  | xorStore
  | block
  | next
  | done (code : Code)
deriving DecidableEq, Repr

/-- The sequencing state that exists only while a CRYPT runs (10_state.md R23): the phase, the STATE field `S0` the command started in
(40_commands.md R61), the block index and the byte index. Where R81 gives an index no value it keeps what it had: DESIGN CHOICE (log 22),
safe. -/
structure Seq where
  phase : Phase
  s0 : BitVec 2
  i : Nat
  j : Nat
deriving DecidableEq, Repr

/-- Data memory: (address, byte) cells, addresses strictly rising, no byte equal to what an unlisted address reads as. -/
abbrev Memory := List Host.Cell

/-- The whole machine. -/
structure State where
  /-- CHAIN; `none` while it holds no value (10_state.md R14, R26). -/
  chain : Option Block
  /-- WORK; `none` while it holds no value (10_state.md R15, R26). -/
  work : Option Block
  /-- EXT; `none` while it holds no value (10_state.md R20, R26). -/
  ext : Option ExtState
  /-- CFG, register 2 (10_state.md R18). -/
  cfg : Word
  /-- STATUS, register 1 (10_state.md R19). -/
  status : Word
  /-- RESULT, register 3 (10_state.md R21). -/
  result : Word
  /-- ARG0, register 4 (10_state.md R16). -/
  arg0 : Word
  /-- ARG1, register 5 (10_state.md R16). -/
  arg1 : Word
  /-- ARG2, register 6 (10_state.md R16). -/
  arg2 : Word
  /-- ARG3, register 7 (10_state.md R16). -/
  arg3 : Word
  /-- The sequencing state of a running CRYPT; `none` between commands (10_state.md R23, R31). -/
  seq : Option Seq
  /-- The data memory, shared by host and engine (20_memory.md R34). -/
  mem : Memory
  /-- The platform's memory map, constant (20_memory.md R38; 10_state.md R25; log 4). -/
  regions : List Region
  /-- The host's remaining operations, the next one first (70_reset_and_hazards.md R129; log 1). -/
  host : List HostOp
  /-- What the host's reads returned, the latest first (70_reset_and_hazards.md R130; log 18). -/
  returned : List HostValue
deriving DecidableEq, Repr

/-- Why a step has no next state although the command is legal. -/
inductive Fault where
  /-- An access of `n` bytes at `a` that the platform does not admit: stuck (20_memory.md R38; U7). Raised by CONSTRUCT with an IV and
  by CRYPT, after their checks. Safe: the spec has no step here either. -/
  | notAdmitted (kind : Access) (a n : Nat)
  /-- CRYPT with CFG.MODE 5, 6 or 7, which no rule produces (10_state.md R18; U14). Raised by CRYPT's selector. Safe, and unreachable
  from reset. -/
  | reservedCfgMode
deriving DecidableEq, Repr

/-- Why a step is refused. -/
inductive Refusal where
  /-- An instruction without a meaning in this model. No arm raises it. Safe. -/
  | notModelled (mnemonic : String)
  /-- Inexact overlap of dst and src in CRYPT (20_memory.md R43; U1). Safe: the spec asks for the refusal. -/
  | inexactOverlap
  /-- A range with `a + n > 2^AW` in CONSTRUCT or CRYPT (20_memory.md R37; U3). Safe: the spec asks for the refusal. -/
  | wrappedRange (a n : Nat)
  /-- A range that touches a device window in CONSTRUCT or CRYPT (20_memory.md R40; U4). Safe: the spec asks for the refusal. -/
  | deviceRange (a n : Nat)
  /-- A host access to a register number above 7 (10_state.md R22; U6). Raised by the host port. Safe: the spec asks for the
  refusal. -/
  | registerNumber (n : Nat)
deriving DecidableEq, Repr

/-- The outcome of a step of this machine. -/
abbrev Result := Host.Outcome State Fault Refusal

/-- The state right after reset (10_state.md R32). DESIGN CHOICE, where the spec is open: a memory that lists nothing (log 6, unsafe),
a platform that admits every access (log 4, unsafe), no host operation pending (log 1, safe). -/
def State.reset : State where
  chain := none
  work := none
  ext := none
  cfg := 0#32
  status := 0#32
  result := 0#32
  arg0 := 0#32
  arg1 := 0#32
  arg2 := 0#32
  arg3 := 0#32
  seq := none
  mem := []
  regions := [{ base := 0, size := 2 ^ Config.AW, readable := true, writable := true, device := false }]
  host := []
  returned := []

end Sys2Proof.Machine
end

