-- ==== Sys2Proof/Machine/Flags.lean ====
section
/-! DEFINITION. The fields of STATUS (10_state.md R19, R24, R28) and of CFG (10_state.md R18), and how a completion writes STATUS
(60_exceptions.md R108). -/

namespace Sys2Proof.Machine

/-- The number of a completion code (60_exceptions.md R101). -/
def codeBits : Code → BitVec 4
  | .ok => 0#4
  | .invalidKeyOrIV => 1#4
  | .invalidLength => 2#4
  | .bufferTooSmall => 3#4
  | .unsupportedMode => 4#4
  | .notConstructed => 5#4
  | .illegalCommand => 6#4

/-- STATUS.STATE = IDLE (10_state.md R28). -/
def stateIdle : BitVec 2 := 0#2

/-- STATUS.STATE = READY (10_state.md R28). -/
def stateReady : BitVec 2 := 1#2

/-- STATUS.STATE = BUSY (10_state.md R28). -/
def stateBusy : BitVec 2 := 2#2

/-- STATUS.STATE, bits 1:0. -/
def statusState (w : Word) : BitVec 2 := w.extractLsb' 0 2

/-- STATUS.STICKY, bit 2. -/
def statusSticky (w : Word) : BitVec 1 := w.extractLsb' 2 1

/-- STATUS.CODE, bits 7:4. -/
def statusCode (w : Word) : BitVec 4 := w.extractLsb' 4 4

/-- STATUS with its three fields written; bits 31:8 and 3, which no rule writes, keep their value. DEDUCED
(log 16), safe. -/
def statusWith (w : Word) (code : BitVec 4) (sticky : BitVec 1) (state : BitVec 2) : Word :=
  w.extractLsb' 8 24 ++ code ++ w.extractLsb' 3 1 ++ sticky ++ state

/-- STICKY after a command that completes with a code: set by a nonzero code, never cleared (10_state.md R24). -/
def stickyAfter (w : Word) (code : Code) : BitVec 1 := if code = .ok then statusSticky w else 1#1

/-- STATUS after `complete(code)` with the engine in `state` (60_exceptions.md R108). -/
def statusAfter (w : Word) (code : Code) (state : BitVec 2) : Word :=
  statusWith w (codeBits code) (stickyAfter w code) state

/-- STATUS while a command runs: STATE is BUSY, the rest as it was (40_commands.md R61). -/
def statusBusy (w : Word) : Word := statusWith w (statusCode w) (statusSticky w) stateBusy

/-- CFG.MODE, bits 7:5. -/
def cfgModeBits (w : Word) : BitVec 3 := w.extractLsb' 5 3

/-- CFG.DIR, bit 4. -/
def cfgDirBit (w : Word) : BitVec 1 := w.extractLsb' 4 1

/-- The mode CFG latches; none for a value no rule produces (10_state.md R18). -/
def cfgMode (w : Word) : Option Mode := modeOfBits (cfgModeBits w)

/-- The direction CFG latches. -/
def cfgDir (w : Word) : Direction := directionOfBits (cfgDirBit w)

/-- CFG as a CONSTRUCT writes it: `(MODE << 5) | (DIR << 4)` (40_commands.md R63 to R67). -/
def cfgWord (m : Mode) (d : Direction) : Word := 0#24 ++ modeBits m ++ directionBits d ++ 0#4

end Sys2Proof.Machine
end

