-- ==== Sys2Proof/Machine/Operands.lean ====
section
/-! DEFINITION. The operands of a command: the full unsigned values of ARG0 to ARG3 (30_encoding.md R52, R53), and how the source
and destination ranges of a CRYPT lie to each other (20_memory.md R41). -/

namespace Sys2Proof.Machine

/-- `iv_addr` of CONSTRUCT (R53). -/
def ivAddr (s : State) : Nat := s.arg0.toNat

/-- `iv_len` of CONSTRUCT (R53). -/
def ivLen (s : State) : Nat := s.arg1.toNat

/-- `dst_addr` of CRYPT (R53). -/
def dstAddr (s : State) : Nat := s.arg0.toNat

/-- `dst_len` of CRYPT (R53). -/
def dstLen (s : State) : Nat := s.arg1.toNat

/-- `src_addr` of CRYPT (R53). -/
def srcAddr (s : State) : Nat := s.arg2.toNat

/-- `src_len` of CRYPT (R53). -/
def srcLen (s : State) : Nat := s.arg3.toNat

/-- The number of blocks of a CRYPT, `n = ARG3 / B` (40_commands.md R70). -/
def blockCount (s : State) : Nat := srcLen s / Config.B

/-- The address of source block `i` (20_memory.md R36). -/
def srcBlockAddr (s : State) (i : Nat) : Nat := srcAddr s + i * Config.B

/-- The address of destination block `i` (20_memory.md R36). -/
def dstBlockAddr (s : State) (i : Nat) : Nat := dstAddr s + i * Config.B

/-- The ranges `(d, n)` and `(a, n)` share no address (20_memory.md R41); an empty range shares none. -/
def disjoint (d a n : Nat) : Bool := decide (n = 0 ∨ d + n ≤ a ∨ a + n ≤ d)

/-- The ranges share an address and start at different ones (20_memory.md R41). -/
def inexactOverlap (d a n : Nat) : Bool := !disjoint d a n && decide (d ≠ a)

end Sys2Proof.Machine
end

