-- ==== Sys2Proof/Machine/Ops.lean ====
section
/-! DEFINITION. The named operations: blocks and the XOR datapath, data memory, the platform's `admits`, the end of a command
(`complete`), reset, and sequencing of outcomes. -/

namespace Sys2Proof.Machine

/-- `X xor Y` on blocks, byte by byte (00_scope.md R11; 41_cbc_block_ops.md R80). -/
def xorBlock (x y : Block) : Block := Vector.ofFn fun j : Fin Config.B => x[j] ^^^ y[j]

/-- The block made of the first `B` bytes of a string. The strings it is applied to have exactly `B` bytes, by `EXT_LEN`
(42_mode_selector.md R94); of a shorter one the missing bytes are 0. DESIGN CHOICE
(log 10), safe. -/
def blockOfBytes (bs : List Byte) : Block := Vector.ofFn fun j : Fin Config.B => bs.getD j 0#8

/-! A read of a hidden register. While it holds no value the read gives a free value, about which nothing can be proved: no zero is put
there (10_state.md R26; 93_implementation_defined.md U8). DESIGN CHOICE (log 7), safe, and no step from the invariant makes such a
read. -/

/-- CHAIN as a block operation reads it (10_state.md R14, R26). -/
def State.chainValue (c : Collaborators) (s : State) : Block := s.chain.getD c.unwrittenChain

/-- WORK as a block operation reads it (10_state.md R15, R26). -/
def State.workValue (c : Collaborators) (s : State) : Block := s.work.getD c.unwrittenWork

/-- EXT as a block operation reads it (10_state.md R20, R26). -/
def State.extValue (c : Collaborators) (s : State) : ExtState := s.ext.getD c.unwrittenExt

/-- What a byte of memory that nothing has written reads as. DESIGN CHOICE (log 6), unsafe: the spec gives none. -/
def unlistedByte : Byte := 0#8

/-- `Mem[a]` (20_memory.md R34). -/
def Memory.read : Memory → Nat → Byte
  | [], _ => unlistedByte
  | (k, v) :: rest, a => if a = k then v else Memory.read rest a

/-- A new cell in front of a memory, unless its byte is what an unlisted address reads as. -/
def Memory.cons (a : Nat) (v : Byte) (m : Memory) : Memory := if v = unlistedByte then m else (a, v) :: m

/-- `Mem[a] <- v` (20_memory.md R34), keeping the canonical form. -/
def Memory.write : Memory → Nat → Byte → Memory
  | [], a, v => Memory.cons a v []
  | (k, w) :: rest, a, v =>
    if a < k then Memory.cons a v ((k, w) :: rest)
    else if a = k then Memory.cons a v rest
    else (k, w) :: Memory.write rest a v

/-- The canonical form: addresses strictly rising, no cell that reads as an unlisted address does. -/
abbrev Memory.wf (m : Memory) : Prop :=
  (m.map Prod.fst).Pairwise (· < ·) ∧ ∀ c ∈ m, c.2 ≠ unlistedByte

/-- Every listed address is in the address space (20_memory.md R34). -/
abbrev Memory.inSpace (m : Memory) : Prop := ∀ c ∈ m, c.1 < 2 ^ Config.AW

/-- `MemRead(a, n)`: `n` byte reads in ascending order (00_scope.md R12; 20_memory.md R40). -/
def Memory.readBytes (m : Memory) (a : Nat) : Nat → List Byte
  | 0 => []
  | n + 1 => Memory.read m a :: Memory.readBytes m (a + 1) n

/-- `MemWrite(a, n, v)`: byte writes in ascending order (00_scope.md R12; 20_memory.md R40). -/
def Memory.writeBytes (m : Memory) (a : Nat) : List Byte → Memory
  | [] => m
  | b :: bs => Memory.writeBytes (Memory.write m a b) (a + 1) bs

/-- The block at an address: byte `j` is `Mem[a + j]` (20_memory.md R36). -/
def Memory.readBlock (m : Memory) (a : Nat) : Block := Vector.ofFn fun j : Fin Config.B => Memory.read m (a + j)

/-- A block written at an address, ascending (20_memory.md R36, R40). -/
def Memory.writeBlock (m : Memory) (a : Nat) (x : Block) : Memory := Memory.writeBytes m a x.toList

/-- Whether a window allows an access of a kind. -/
def Region.allows (r : Region) (kind : Access) : Bool :=
  match kind with
  | .read => r.readable
  | .write => r.writable

/-- `admits(a, n, kind)`: some plain-memory window holds the whole range and allows the access (20_memory.md R38). DESIGN CHOICE
(log 4), safe. -/
def admits (regions : List Region) (a n : Nat) (kind : Access) : Bool :=
  regions.any fun r => !r.device && decide (r.base ≤ a) && decide (a + n ≤ r.base + r.size) && Region.allows r kind

/-- Some address of the range lies in a device window (20_memory.md R40; U4). DESIGN CHOICE (log 5), safe: the form of the windows, and
that an empty range and a window of size 0 hold no address and so touch nothing. -/
def touchesDevice (regions : List Region) (a n : Nat) : Bool :=
  regions.any fun r => r.device && decide (r.base < a + n) && decide (a < r.base + r.size) && decide (0 < n) && decide (0 < r.size)

/-- One outcome after another: a stop ends the sequence. -/
def andThen (o : Result) (f : State → Result) : Result :=
  match o with
  | .next s => f s
  | .fault r => .fault r
  | .refused r => .refused r

/-- `complete(code)` leaving the engine in `state`: the whole of "trap entry" (60_exceptions.md R108). -/
def State.complete (code : Code) (state : BitVec 2) (s : State) : State :=
  { s with status := statusAfter s.status code state }

/-- `complete(code)` of any command but a successful CONSTRUCT: STATE is the one the command started in (40_commands.md R61). -/
def State.finish (code : Code) (s : State) : State := s.complete code (statusState s.status)

/-- The external reset: every piece of engine state takes its reset value; memory, platform and host keep theirs
(70_reset_and_hazards.md R116, R117). -/
def State.resetEngine (s : State) : State :=
  { State.reset with mem := s.mem, regions := s.regions, host := s.host, returned := s.returned }

/-- `go`, if the engine may make this access: the range does not wrap (20_memory.md R37), touches no device (R40) and is admitted
(R38). -/
def withRange (s : State) (kind : Access) (a n : Nat) (go : Result) : Result :=
  if 2 ^ Config.AW < a + n then .refused (.wrappedRange a n)
  else if touchesDevice s.regions a n then .refused (.deviceRange a n)
  else if admits s.regions a n kind then go
  else .fault (.notAdmitted kind a n)

end Sys2Proof.Machine
end

