-- ==== Sys2Proof/Machine/Construct.lean ====
section
/-! DEFINITION. CONSTRUCT (40_commands.md R62 to R67): one shared operation, and a meaning for each of the five modes. -/

namespace Sys2Proof.Machine

/-- A CONSTRUCT that has passed its checks latches CFG and ends in READY (R62). -/
def State.construct (m : Mode) (d : Direction) (s : State) : State :=
  State.complete .ok stateReady { s with cfg := cfgWord m d }

/-- A CONSTRUCT of a mode that uses the IV: the length check, the read of the IV, the mode's own state written by `load`, CFG
(R62; 60_exceptions.md R102). -/
def constructWithIv (m : Mode) (d : Direction) (load : Block → State → State) (s : State) : Result :=
  if ivLen s ≠ Config.B then .next (s.finish .invalidKeyOrIV)
  else withRange s .read (ivAddr s) Config.B (.next ((load (s.mem.readBlock (ivAddr s)) s).construct m d))

/-- CHAIN seeded with the IV (R63). -/
def loadChain (iv : Block) (s : State) : State := { s with chain := some iv }

/-- EXT made from the IV by the given transform of a mode (R65 to R67; 42_mode_selector.md R93). -/
def loadExt (c : Collaborators) (m : ExtMode) (d : Direction) (iv : Block) (s : State) : State :=
  { s with ext := some (c.extInit m c.enc c.dec d iv) }

/-- CONSTRUCT.ECB (R64): ARG0 and ARG1 are not read; no check can fail. -/
def execConstructEcb (d : Direction) (s : State) : Result := .next (s.construct .ecb d)

/-- CONSTRUCT.CBC (R63). -/
def execConstructCbc (d : Direction) (s : State) : Result := constructWithIv .cbc d loadChain s

/-- CONSTRUCT.CFB (R65). -/
def execConstructCfb (d : Direction) (s : State) : Result :=
  constructWithIv (.ext .cfb) d (loadExt Config.given.toCollaborators .cfb d) s

/-- CONSTRUCT.OFB (R66): the direction is latched; `EXT_SYM` makes the transform ignore it (42_mode_selector.md R95). -/
def execConstructOfb (d : Direction) (s : State) : Result :=
  constructWithIv (.ext .ofb) d (loadExt Config.given.toCollaborators .ofb d) s

/-- CONSTRUCT.CTR (R67): the direction is latched; `EXT_SYM` makes the transform ignore it (42_mode_selector.md R95). -/
def execConstructCtr (d : Direction) (s : State) : Result :=
  constructWithIv (.ext .ctr) d (loadExt Config.given.toCollaborators .ctr d) s

end Sys2Proof.Machine
end

