-- ==== Sys2Proof/Machine/Crypt.lean ====
section
/-! DEFINITION. CRYPT (40_commands.md R69 to R71): its checks, the conditions under which the spec gives it no meaning, the block
operations of every mode (41_cbc_block_ops.md R73, R74; 42_mode_selector.md R89, R90, R94) and the loop over the blocks. Every
operation takes the collaborators as an argument; the meaning uses `Config.given`. -/

namespace Sys2Proof.Machine

/-- The three checks of CRYPT in their order; `s0` is the STATE the command started in (40_commands.md R69; 60_exceptions.md R109). -/
def cryptCheck (s0 : BitVec 2) (s : State) : Option Code :=
  if s0 ≠ stateReady then some .notConstructed
  else if srcLen s % Config.B ≠ 0 then some .invalidLength
  else if dstLen s < srcLen s then some .bufferTooSmall
  else none

/-- `go`, if the spec gives a CRYPT that passed its checks a meaning: no range wraps (20_memory.md R37), no inexact overlap (R43), no
device (R40), both ranges admitted (R38). A CRYPT of length 0 uses no address (40_commands.md R71): DEDUCED (log 15),
unsafe. The order of the stops is a DESIGN CHOICE (log 12), safe. -/
def withCryptRanges (s : State) (go : Result) : Result :=
  if srcLen s = 0 then go
  else if 2 ^ Config.AW < srcAddr s + srcLen s then .refused (.wrappedRange (srcAddr s) (srcLen s))
  else if 2 ^ Config.AW < dstAddr s + srcLen s then .refused (.wrappedRange (dstAddr s) (srcLen s))
  else if inexactOverlap (dstAddr s) (srcAddr s) (srcLen s) then .refused .inexactOverlap
  else withRange s .read (srcAddr s) (srcLen s) (withRange s .write (dstAddr s) (srcLen s) go)

/-! ### The steps of CBC.ENC (R73) -/

/-- Step 1, phase XOR: `WORK[j] <- CHAIN[j] xor Mem[a + j]`. -/
def cbcEncXor (c : Collaborators) (a : Nat) (s : State) : Result :=
  .next { s with work := some (xorBlock (s.chainValue c) (s.mem.readBlock a)) }

/-- Step 2, phase CIPHER: `CHAIN <- Enc(WORK)`. -/
def cbcEncCipher (c : Collaborators) (s : State) : Result := .next { s with chain := some (c.enc (s.workValue c)) }

/-- Step 3, phase STORE: `Mem[d + j] <- CHAIN[j]`. -/
def cbcEncStore (c : Collaborators) (d : Nat) (s : State) : Result :=
  .next { s with mem := s.mem.writeBlock d (s.chainValue c) }

/-- CBC.ENC(d, a) (R73). -/
def cbcEnc (c : Collaborators) (d a : Nat) (s : State) : Result :=
  andThen (cbcEncXor c a s) fun s => andThen (cbcEncCipher c s) fun s => cbcEncStore c d s

/-! ### The steps of CBC.DEC (R74, R76) -/

/-- Step 1, phase CIPHER: `WORK <- Dec(MemRead(a, B))`. -/
def cbcDecCipher (c : Collaborators) (a : Nat) (s : State) : Result :=
  .next { s with work := some (c.dec (s.mem.readBlock a)) }

/-- Steps 2 and 3 for byte `j`, phase XORSTORE, in this order: the ciphertext byte goes to the temporary `t`, the plaintext byte to
memory, `t` to CHAIN (R76). A `j` past the block touches nothing. -/
def cbcDecByte (c : Collaborators) (d a j : Nat) (s : State) : Result :=
  if h : j < Config.B then
    let t := s.mem.read (a + j)
    let mem := s.mem.write (d + j) ((s.workValue c)[j] ^^^ (s.chainValue c)[j])
    .next { s with mem := mem, chain := some ((s.chainValue c).set j t) }
  else .next s

/-- Steps 2 and 3 for the bytes `0` to `n - 1`, ascending. -/
def cbcDecBytes (c : Collaborators) (d a : Nat) : Nat → State → Result
  | 0, s => .next s
  | n + 1, s => andThen (cbcDecBytes c d a n s) fun s => cbcDecByte c d a n s

/-- CBC.DEC(d, a) (R74). -/
def cbcDec (c : Collaborators) (d a : Nat) (s : State) : Result :=
  andThen (cbcDecCipher c a s) fun s => cbcDecBytes c d a Config.B s

/-! ### ECB and the given transforms -/

/-- ECB.ENC(d, a) (42_mode_selector.md R89). -/
def ecbEnc (c : Collaborators) (d a : Nat) (s : State) : Result :=
  .next { s with mem := s.mem.writeBlock d (c.enc (s.mem.readBlock a)) }

/-- ECB.DEC(d, a) (42_mode_selector.md R90). -/
def ecbDec (c : Collaborators) (d a : Nat) (s : State) : Result :=
  .next { s with mem := s.mem.writeBlock d (c.dec (s.mem.readBlock a)) }

/-- EXT.BLOCK(m, d, a) (42_mode_selector.md R94). -/
def extBlock (c : Collaborators) (m : ExtMode) (d a : Nat) (s : State) : Result :=
  let r := c.extXform m (s.extValue c) (s.mem.readBytes a Config.B)
  .next { s with ext := some r.1, mem := s.mem.writeBlock d (blockOfBytes r.2) }

/-! ### The selector and the loop -/

/-- The block operation CFG selects (40_commands.md R70; 42_mode_selector.md R87). -/
def blockOp (c : Collaborators) (d a : Nat) (s : State) : Result :=
  match cfgMode s.cfg, cfgDir s.cfg with
  | some .cbc, .encrypt => cbcEnc c d a s
  | some .cbc, .decrypt => cbcDec c d a s
  | some .ecb, .encrypt => ecbEnc c d a s
  | some .ecb, .decrypt => ecbDec c d a s
  | some (.ext m), _ => extBlock c m d a s
  | none, _ => .fault .reservedCfgMode

/-- The blocks `0` to `n - 1` of a CRYPT, ascending, one at a time (40_commands.md R70). -/
def cryptBlocks (c : Collaborators) : Nat → State → Result
  | 0, s => .next s
  | n + 1, s => andThen (cryptBlocks c n s) fun s => blockOp c (dstBlockAddr s n) (srcBlockAddr s n) s

/-- CRYPT with given collaborators (40_commands.md R69, R70). -/
def cryptWith (c : Collaborators) (s : State) : Result :=
  match cryptCheck (statusState s.status) s with
  | some code => .next (s.finish code)
  | none => withCryptRanges s (andThen (cryptBlocks c (blockCount s) s) fun s => .next (s.finish .ok))

/-- CRYPT (40_commands.md R69 to R71). -/
def execCrypt (s : State) : Result := cryptWith Config.given.toCollaborators s

end Sys2Proof.Machine
end

