-- ==== Sys2Proof/Machine/Query.lean ====
section
/-! DEFINITION. BLKSIZE (40_commands.md R68). -/

namespace Sys2Proof.Machine

/-- BLKSIZE: RESULT takes `B`; legal in every state and mode; no check (R68). -/
def execBlksize (s : State) : Result := .next (State.finish .ok { s with result := BitVec.ofNat 32 Config.B })

end Sys2Proof.Machine
end

