-- ==== Sys2Proof/Machine/Dispatch.lean ====
section
/-! DEFINITION. The meaning of every command, one arm per constructor of Instr. -/

namespace Sys2Proof.Machine

def exec (i : Instr) (s : State) : Host.Outcome State Fault Refusal :=
  match i with
  | .constructEcb d => Sys2Proof.Machine.execConstructEcb d s
  | .constructCbc d => Sys2Proof.Machine.execConstructCbc d s
  | .constructCfb d => Sys2Proof.Machine.execConstructCfb d s
  | .constructOfb d => Sys2Proof.Machine.execConstructOfb d s
  | .constructCtr d => Sys2Proof.Machine.execConstructCtr d s
  | .blksize => Sys2Proof.Machine.execBlksize s
  | .crypt => Sys2Proof.Machine.execCrypt s

end Sys2Proof.Machine
end

