-- ==== Sys2Proof/Machine/Phases.lean ====
section
/-! DEFINITION. The finer level: the phases a running CRYPT walks (41_cbc_block_ops.md R81), one phase a step, over the same block
operations as Machine/Crypt.lean. The host has no move until DONE (00_scope.md R10; 10_state.md R31). -/

namespace Sys2Proof.Machine

/-- The engine accepts a CRYPT at the finer level: STATE is BUSY, S0 is remembered, the first phase is CHECK (40_commands.md R61).
DESIGN CHOICE (log 22), safe: R81 gives `i` no value in CHECK and `j` none outside XORSTORE; the model starts both at 0. Neither is read
before it is set. -/
def State.startCrypt (s : State) : State :=
  { s with
    status := statusBusy s.status
    seq := some { phase := .check, s0 := statusState s.status, i := 0, j := 0 } }

/-- The sequencing state goes to a phase. -/
def State.goto (q : Seq) (p : Phase) (s : State) : State := { s with seq := some { q with phase := p } }

/-- The first phase of a block: XOR or CIPHER in CBC mode by direction (R81); `block` in every other mode (log 3). -/
def firstPhase (s : State) : Phase :=
  match cfgMode s.cfg, cfgDir s.cfg with
  | some .cbc, .encrypt => .xor
  | some .cbc, .decrypt => .cipher
  | some .ecb, _ => .block
  | some (.ext _), _ => .block
  | none, _ => .block

/-- Phase CHECK (R81). -/
def phaseCheck (q : Seq) (s : State) : Result :=
  match cryptCheck q.s0 s with
  | some code => .next (s.goto q (.done code))
  | none =>
    withCryptRanges s
      (.next (if blockCount s = 0 then s.goto q (.done .ok) else s.goto { q with i := 0 } (firstPhase s)))

/-- Phase CIPHER: step 2 of CBC.ENC, then STORE; or step 1 of CBC.DEC, then XORSTORE from byte 0 (R81). -/
def phaseCipher (c : Collaborators) (q : Seq) (s : State) : Result :=
  match cfgDir s.cfg with
  | .encrypt => andThen (cbcEncCipher c s) fun s => .next (s.goto q .store)
  | .decrypt => andThen (cbcDecCipher c (srcBlockAddr s q.i) s) fun s => .next (s.goto { q with j := 0 } .xorStore)

/-- Phase XORSTORE for byte `j` (R81). After the last byte `j` stays at `B`, which nothing reads: DESIGN CHOICE (log 22), safe. -/
def phaseXorStore (c : Collaborators) (q : Seq) (s : State) : Result :=
  andThen (cbcDecByte c (dstBlockAddr s q.i) (srcBlockAddr s q.i) q.j s) fun s =>
    .next (s.goto { q with j := q.j + 1 } (if q.j + 1 < Config.B then .xorStore else .next))

/-- Phase NEXT (R81). -/
def phaseNext (q : Seq) (s : State) : Result :=
  .next (s.goto { q with i := q.i + 1 } (if q.i + 1 < blockCount s then firstPhase s else .done .ok))

/-- One phase of a running CRYPT (R81). -/
def phaseStep (c : Collaborators) (q : Seq) (s : State) : Result :=
  match q.phase with
  | .check => phaseCheck q s
  | .xor => andThen (cbcEncXor c (srcBlockAddr s q.i) s) fun s => .next (s.goto q .cipher)
  | .cipher => phaseCipher c q s
  | .store => andThen (cbcEncStore c (dstBlockAddr s q.i) s) fun s => .next (s.goto q .next)
  | .xorStore => phaseXorStore c q s
  | .block => andThen (blockOp c (dstBlockAddr s q.i) (srcBlockAddr s q.i) s) fun s => .next (s.goto q .next)
  | .next => phaseNext q s
  | .done code => .next ({ s with seq := none }.complete code q.s0)

end Sys2Proof.Machine
end

