-- ==== Sys2Proof/Machine/HostPort.lean ====
section
/-! DEFINITION. What the host can do (70_reset_and_hazards.md R130): the register map (10_state.md R22), the write of CMD, data memory
between commands, and the external reset, between commands or during one. -/

namespace Sys2Proof.Machine

/-- A host write of CMD: `decode`, then the rule of the outcome (30_encoding.md R58; 60_exceptions.md R105, R107). -/
def runWord (w : Word) (s : State) : Result :=
  match decode w with
  | .instr i => exec i s
  | .reservedMode => .next (s.finish .unsupportedMode)
  | .illegal => .next (s.finish .illegalCommand)

/-- A host write of register `n` (10_state.md R22). -/
def writeReg (n : Nat) (v : Word) (s : State) : Result :=
  match n with
  | 0 => runWord v s
  | 1 => .next s
  | 2 => .next s
  | 3 => .next s
  | 4 => .next { s with arg0 := v }
  | 5 => .next { s with arg1 := v }
  | 6 => .next { s with arg2 := v }
  | 7 => .next { s with arg3 := v }
  | _ => .refused (.registerNumber n)

/-- What a read of register `n` returns; nothing above 7 (10_state.md R22). -/
def regValue (n : Nat) (s : State) : Option Word :=
  match n with
  | 0 => some 0#32
  | 1 => some s.status
  | 2 => some s.cfg
  | 3 => some s.result
  | 4 => some s.arg0
  | 5 => some s.arg1
  | 6 => some s.arg2
  | 7 => some s.arg3
  | _ => none

/-- A host read of register `n`: no side effect on the engine (10_state.md R22). -/
def readReg (n : Nat) (s : State) : Result :=
  match regValue n s with
  | some v => .next { s with returned := .reg n v :: s.returned }
  | none => .refused (.registerNumber n)

/-- A write of CMD at the finer level: a CRYPT starts its phases; the other commands are straight-line (70_reset_and_hazards.md R132)
and run at once. -/
def walkWord (w : Word) (s : State) : Result :=
  if decode w = .instr .crypt then .next s.startCrypt else runWord w s

/-- The memory after the first `k` byte writes of a CRYPT that leads from `s` to `t`: each destination byte is written once, in
ascending order, with its final value (20_memory.md R40, R45). DEDUCED (log 11), unsafe in the cases the row names. -/
def memAfterWrites (k : Nat) (s t : State) : Memory :=
  s.mem.writeBytes (dstAddr s) (t.mem.readBytes (dstAddr s) (min k (srcLen s)))

/-- A command abandoned by an external reset after `k` of its byte writes: what was written stays written, the engine is reset
(70_reset_and_hazards.md R116). Only CRYPT writes memory, and only when it completes with code OK (20_memory.md R34;
60_exceptions.md R110). -/
def resetDuring (w : Word) (k : Nat) (s : State) : Result :=
  andThen (runWord w s) fun t =>
    .next
      (State.resetEngine
        (if decode w = .instr .crypt ∧ cryptCheck (statusState s.status) s = none then
          { s with mem := memAfterWrites k s t }
        else s))

/-- One operation of the host (70_reset_and_hazards.md R130). -/
def serve (op : HostOp) (s : State) : Result :=
  match op with
  | .write n v => writeReg n v s
  | .read n => readReg n s
  | .store a b => .next { s with mem := s.mem.write a.toNat b }
  | .load a => .next { s with returned := .byte a (s.mem.read a.toNat) :: s.returned }
  | .reset => .next s.resetEngine
  | .walk w => walkWord w s
  | .resetDuring w k => resetDuring w k s

/-- The next host operation, if there is one; without one the engine stays as it is (70_reset_and_hazards.md R129; log 1). -/
def hostStep (s : State) : Result :=
  match s.host with
  | [] => .next s
  | op :: rest => serve op { s with host := rest }

end Sys2Proof.Machine
end

