-- ==== Sys2Proof/Machine/Step.lean ====
section
/-! DEFINITION. One step of the machine: a phase of the running CRYPT, or the next operation of the host. -/

namespace Sys2Proof.Machine

/-- While a CRYPT runs at the finer level the host has no move (10_state.md R31); else the host's next operation (R129). -/
def step (s : State) : Host.Outcome State Fault Refusal :=
  match s.seq with
  | some q => phaseStep Config.given.toCollaborators q s
  | none => hostStep s

/-- `s` with the command of the table's word `w` as the host's next write of CMD (log 1). -/
def State.withFetchWord (s : State) (_nbits w : Nat) : State :=
  { s with seq := none, host := .write 0 (BitVec.ofNat 32 w) :: s.host }

end Sys2Proof.Machine
end

