-- ==== Sys2Proof/Safety.lean ====
section
/-! DEFINITION. The terms claims are stated in: the conditions under which a command has a meaning, what a completion does to STATUS,
the invariant of the machine (10_state.md R33), and the closed forms of the stream transforms (41_cbc_block_ops.md R82, R83). -/

namespace Sys2Proof.Machine

/-! ### Conditions -/

/-- The engine may make this access (20_memory.md R37, R38, R40). -/
abbrev RangeOk (s : State) (kind : Access) (a n : Nat) : Prop :=
  a + n ≤ 2 ^ Config.AW ∧ touchesDevice s.regions a n = false ∧ admits s.regions a n kind = true

/-- A CONSTRUCT with an IV passes its check and may read the IV (40_commands.md R62). -/
abbrev IvOk (s : State) : Prop := s.arg1 = 16#32 ∧ RangeOk s .read (ivAddr s) Config.B

/-- A CRYPT passes its three checks (40_commands.md R69). -/
abbrev CryptChecksPass (s : State) : Prop :=
  statusState s.status = stateReady ∧ srcLen s % Config.B = 0 ∧ srcLen s ≤ dstLen s

/-- The ranges of a CRYPT have a meaning: nothing to do, or both admitted and disjoint or exactly aliased (20_memory.md R37 to R43). -/
abbrev CryptRangesOk (s : State) : Prop :=
  srcLen s = 0 ∨
    (RangeOk s .read (srcAddr s) (srcLen s) ∧ RangeOk s .write (dstAddr s) (srcLen s) ∧
      (disjoint (dstAddr s) (srcAddr s) (srcLen s) = true ∨ dstAddr s = srcAddr s))

/-- A CRYPT that runs its blocks, over a memory in canonical form. -/
abbrev CryptRuns (s : State) : Prop := CryptChecksPass s ∧ CryptRangesOk s ∧ s.mem.wf

/-- The address lies outside the bytes a CRYPT stores to: the first `src_len` bytes of the destination (20_memory.md R45). -/
abbrev OutsideDst (s : State) (a : Nat) : Prop := a < dstAddr s ∨ dstAddr s + srcLen s ≤ a

/-- What a completion does to STATUS: CODE is the code, STICKY is set by a nonzero code and otherwise kept, STATE is `state`, the
remaining bits are kept (60_exceptions.md R108). -/
abbrev StatusBecomes (old new : Word) (code : Code) (state : BitVec 2) : Prop :=
  statusCode new = codeBits code ∧ statusSticky new = (if code = .ok then statusSticky old else 1#1) ∧
    statusState new = state ∧ new.extractLsb' 8 24 = old.extractLsb' 8 24 ∧ new.extractLsb' 3 1 = old.extractLsb' 3 1

/-! ### The invariant -/

/-- STATUS as R33 item 1 has it: the zero fields are 0, STATE is not 3, CODE is at most 6, and a nonzero CODE has set STICKY. -/
abbrev StatusOk (w : Word) : Prop :=
  w.extractLsb' 8 24 = 0#24 ∧ w.extractLsb' 3 1 = 0#1 ∧ statusState w ≠ 3#2 ∧ (statusCode w).toNat ≤ 6 ∧
    (statusCode w ≠ 0#4 → statusSticky w = 1#1)

/-- CFG as R33 item 1 has it: the zero fields are 0 and MODE is at most 4. -/
abbrev CfgOk (w : Word) : Prop :=
  w.extractLsb' 8 24 = 0#24 ∧ w.extractLsb' 0 4 = 0#4 ∧ (cfgModeBits w).toNat ≤ 4

/-- STATE as it is between commands: the STATUS field, or the remembered S0 while a CRYPT runs (40_commands.md R61). -/
def liveState (s : State) : BitVec 2 :=
  match s.seq with
  | none => statusState s.status
  | some q => q.s0

/-- In READY the register the mode reads holds a value; in IDLE no instance exists (10_state.md R26, R28, R33). -/
abbrev RegistersOk (s : State) : Prop :=
  (liveState s = stateIdle ∧ s.cfg = 0#32 ∧ s.chain = none ∧ s.work = none ∧ s.ext = none) ∨
    (liveState s = stateReady ∧ (cfgMode s.cfg = some .cbc → s.chain.isSome = true) ∧
      ((cfgMode s.cfg = some (.ext .cfb) ∨ cfgMode s.cfg = some (.ext .ofb) ∨ cfgMode s.cfg = some (.ext .ctr)) →
        s.ext.isSome = true))

/-- A running CRYPT has passed its checks and is in the middle of block `i` (41_cbc_block_ops.md R81). -/
abbrev InBlock (s : State) (q : Seq) : Prop :=
  q.s0 = stateReady ∧ q.i < blockCount s ∧ dstAddr s + srcLen s ≤ 2 ^ Config.AW

/-- The phases that belong to a mode and a direction, and the registers and the byte index they need (41_cbc_block_ops.md R81). -/
def phaseOk (s : State) (q : Seq) : Prop :=
  match q.phase with
  | .check => True
  | .xor => InBlock s q ∧ cfgMode s.cfg = some .cbc ∧ cfgDir s.cfg = .encrypt
  | .cipher => InBlock s q ∧ cfgMode s.cfg = some .cbc ∧ (cfgDir s.cfg = .encrypt → s.work.isSome = true)
  | .store => InBlock s q ∧ cfgMode s.cfg = some .cbc ∧ cfgDir s.cfg = .encrypt
  | .xorStore =>
    InBlock s q ∧ cfgMode s.cfg = some .cbc ∧ cfgDir s.cfg = .decrypt ∧ s.work.isSome = true ∧ q.j < Config.B
  | .block => InBlock s q ∧ cfgMode s.cfg ≠ some .cbc
  | .next => InBlock s q
  | .done _ => True

/-- STATE is BUSY exactly while a CRYPT runs, in one of its phases (10_state.md R29; 41_cbc_block_ops.md R81). -/
def SeqOk (s : State) : Prop :=
  match s.seq with
  | none => statusState s.status ≠ stateBusy
  | some q => statusState s.status = stateBusy ∧ phaseOk s q

/-- The invariant of the machine (10_state.md R33), with the canonical form of memory. -/
structure Inv (s : State) : Prop where
  status : StatusOk s.status
  cfg : CfgOk s.cfg
  result : s.result = 0#32 ∨ s.result = 16#32
  registers : RegistersOk s
  seq : SeqOk s
  memWf : s.mem.wf
  memInSpace : s.mem.inSpace

/-! ### Streams of blocks -/

/-- The `n` blocks of memory from an address on (20_memory.md R36). -/
def blocksAt (m : Memory) (a : Nat) : Nat → List Block
  | 0 => []
  | n + 1 => m.readBlock a :: blocksAt m (a + Config.B) n

/-- The source blocks of a CRYPT, as they stand in memory before it. -/
def srcBlocks (s : State) : List Block := blocksAt s.mem (srcAddr s) (blockCount s)

/-- The blocks in the bytes that a CRYPT from `s` stores to, as they stand in the memory of `t`. -/
def dstBlocks (s t : State) : List Block := blocksAt t.mem (dstAddr s) (blockCount s)

/-- The bytes of a list of blocks, in order. -/
def bytesOfBlocks : List Block → List Byte
  | [] => []
  | x :: xs => x.toList ++ bytesOfBlocks xs

/-- `C_i = Enc(C_{i-1} xor P_i)` over a stream, from the chain value `ch` (41_cbc_block_ops.md R82). -/
def cbcEncStream (enc : Block → Block) : Block → List Block → List Block
  | _, [] => []
  | ch, p :: ps => enc (xorBlock ch p) :: cbcEncStream enc (enc (xorBlock ch p)) ps

/-- `P_i = Dec(C_i) xor C_{i-1}` over a stream, from the chain value `ch` (41_cbc_block_ops.md R83). -/
def cbcDecStream (dec : Block → Block) : Block → List Block → List Block
  | _, [] => []
  | ch, y :: ys => xorBlock (dec y) ch :: cbcDecStream dec y ys

/-- CHAIN after a stream: the last block, or what it held before when the stream is empty (41_cbc_block_ops.md R79). -/
def lastBlock : Option Block → List Block → Option Block
  | ch, [] => ch
  | _, y :: ys => lastBlock (some y) ys

/-- WORK after encrypting a stream: `C_{i-1} xor P_i` of the last block, or the value before (41_cbc_block_ops.md R73). -/
def cbcEncWork (enc : Block → Block) : Block → Option Block → List Block → Option Block
  | _, w, [] => w
  | ch, _, p :: ps => cbcEncWork enc (enc (xorBlock ch p)) (some (xorBlock ch p)) ps

/-- WORK after decrypting a stream: `Dec(C_i)` of the last block, or the value before (41_cbc_block_ops.md R74). -/
def cbcDecWork (dec : Block → Block) : Option Block → List Block → Option Block
  | w, [] => w
  | _, y :: ys => cbcDecWork dec (some (dec y)) ys

end Sys2Proof.Machine
end

