-- ==== Sys2Proof/Certificates/Slice0/Obligations.lean ====
section
/-! DEFINITION. The statements about CBCENG for the provers. Each docstring names the rules of spec/ it comes from; the premise
`mem.wf` is the canonical form of memory, an invariant stated here (`StepKeepsTheInvariant`). `Config.given` is opaque: no statement
rests on a value of the primitive, of a given transform or of what a register that holds no value reads as (log 7): `chainValue` and `extValue` are
CHAIN and EXT where they hold a value, and a free value where they do not. -/

open Sys2Proof Sys2Proof.Machine

/-! ### Reset, decoding, the step -/

/-- 10_state.md R32: the values after reset, in the state the model starts in and after an external reset of any state; the reset does
not touch the data memory. -/
def Obligations.ResetLeavesTheStatedValues : Prop :=
  (State.reset.status = 0#32 ∧ State.reset.cfg = 0#32 ∧ State.reset.result = 0#32 ∧ State.reset.arg0 = 0#32 ∧
    State.reset.arg1 = 0#32 ∧ State.reset.arg2 = 0#32 ∧ State.reset.arg3 = 0#32 ∧ State.reset.chain = none ∧
    State.reset.work = none ∧ State.reset.ext = none ∧ State.reset.seq = none ∧ regValue 0 State.reset = some 0#32) ∧
  ∀ (s : State) (rest : List HostOp), s.seq = none → s.host = .reset :: rest →
    ∃ t, step s = .next t ∧ t.status = 0#32 ∧ t.cfg = 0#32 ∧ t.result = 0#32 ∧ t.arg0 = 0#32 ∧ t.arg1 = 0#32 ∧
      t.arg2 = 0#32 ∧ t.arg3 = 0#32 ∧ t.chain = none ∧ t.work = none ∧ t.ext = none ∧ t.seq = none ∧
      regValue 0 t = some 0#32 ∧ t.mem = s.mem

/-- 30_encoding.md R58, 10_state.md R22: a host write of a word to CMD that decodes to a well-formed command runs that command; the
step takes the operation off the host's queue and does nothing else around it. -/
def Obligations.StepRunsTheDecodedCommand : Prop :=
  ∀ (s : State) (w : Word) (rest : List HostOp) (i : Instr), s.seq = none → s.host = .write 0 w :: rest →
    decode w = .instr i → i.wellFormed = true → step s = exec i { s with host := rest }

/-- 95_test_vectors.md V16 and 30_encoding.md R54: words written out from the encoding. -/
def Obligations.DecodeOfWrittenWords : Prop :=
  decode 0b00000000000000000000000000010001#32 = .instr (.constructEcb .decrypt) ∧
  decode 0b00000000000000000000000000110001#32 = .instr (.constructCbc .decrypt) ∧
  decode 0b00000000000000000000000001000001#32 = .instr (.constructCfb .encrypt) ∧
  decode 0b00000000000000000000000001110001#32 = .instr (.constructOfb .decrypt) ∧
  decode 0b00000000000000000000000010010001#32 = .instr (.constructCtr .decrypt) ∧
  decode 0b00000000000000000000000000000010#32 = .instr .blksize ∧
  decode 0b00000000000000000000000000000011#32 = .instr .crypt ∧
  decode 0b00000000000000000000000110100001#32 = .illegal

/-- 30_encoding.md R58: the decoding function, clause by clause, and what a host write of CMD does with its outcome. -/
def Obligations.DecodeFollowsItsRule : Prop :=
  (∀ w : Word,
    (w.extractLsb' 8 24 ≠ 0#24 → decode w = .illegal) ∧
    (w.extractLsb' 8 24 = 0#24 →
      (w.extractLsb' 0 4 = 1#4 →
        ((w.extractLsb' 5 3).toNat ≤ 4 →
          ∃ m d, decode w = .instr (constructInstr m d) ∧ modeBits m = w.extractLsb' 5 3 ∧
            directionBits d = w.extractLsb' 4 1) ∧
        (4 < (w.extractLsb' 5 3).toNat → decode w = .reservedMode)) ∧
      (w.extractLsb' 0 4 = 2#4 → decode w = if w.extractLsb' 4 4 = 0#4 then .instr .blksize else .illegal) ∧
      (w.extractLsb' 0 4 = 3#4 → decode w = if w.extractLsb' 4 4 = 0#4 then .instr .crypt else .illegal) ∧
      (w.extractLsb' 0 4 ≠ 1#4 → w.extractLsb' 0 4 ≠ 2#4 → w.extractLsb' 0 4 ≠ 3#4 → decode w = .illegal))) ∧
  ∀ (s : State) (w : Word) (rest : List HostOp), s.seq = none → s.host = .write 0 w :: rest →
    step s =
      match decode w with
      | .instr i => exec i { s with host := rest }
      | .reservedMode => .next (State.finish .unsupportedMode { s with host := rest })
      | .illegal => .next (State.finish .illegalCommand { s with host := rest })

/-- 30_encoding.md R54: the legal words are exactly these twelve, each with its command; and the match and mask of each row. -/
def Obligations.LegalWordsAreTheTwelve : Prop :=
  (∀ (w : Word) (i : Instr), decode w = .instr i ↔
    (w, i) ∈
      [(0x00000001#32, Instr.constructEcb .encrypt), (0x00000011#32, Instr.constructEcb .decrypt),
       (0x00000021#32, Instr.constructCbc .encrypt), (0x00000031#32, Instr.constructCbc .decrypt),
       (0x00000041#32, Instr.constructCfb .encrypt), (0x00000051#32, Instr.constructCfb .decrypt),
       (0x00000061#32, Instr.constructOfb .encrypt), (0x00000071#32, Instr.constructOfb .decrypt),
       (0x00000081#32, Instr.constructCtr .encrypt), (0x00000091#32, Instr.constructCtr .decrypt),
       (0x00000002#32, Instr.blksize), (0x00000003#32, Instr.crypt)]) ∧
  (∀ (w : Word) (m : Mode), (∃ d, decode w = .instr (constructInstr m d)) ↔
    w &&& 0xFFFFFFEF#32 = 0x00000001#32 + 32#32 * (modeBits m).setWidth 32) ∧
  (∀ w : Word, decode w = .instr .blksize ↔ w &&& 0xFFFFFFFF#32 = 0x00000002#32) ∧
  (∀ w : Word, decode w = .instr .crypt ↔ w &&& 0xFFFFFFFF#32 = 0x00000003#32)

/-- 30_encoding.md R55, 60_exceptions.md R105: the six reserved-mode words, and that each completes with code 4 and changes nothing
else, whatever ARG1 holds. -/
def Obligations.ReservedModeWordsComplete : Prop :=
  (∀ w : Word, decode w = .reservedMode ↔
    w ∈ [0x000000A1#32, 0x000000B1#32, 0x000000C1#32, 0x000000D1#32, 0x000000E1#32, 0x000000F1#32]) ∧
  ∀ (s : State) (w : Word) (rest : List HostOp), s.seq = none → s.host = .write 0 w :: rest → decode w = .reservedMode →
    ∃ st, step s = .next { s with host := rest, status := st } ∧
      StatusBecomes s.status st .unsupportedMode (statusState s.status)

/-- 30_encoding.md R56, 60_exceptions.md R107: the illegal words, and that each completes with code 6 and changes nothing else. -/
def Obligations.IllegalWordsComplete : Prop :=
  (∀ w : Word, decode w = .illegal ↔
    (w.extractLsb' 8 24 ≠ 0#24 ∨ w.extractLsb' 0 4 = 0#4 ∨ 4 ≤ (w.extractLsb' 0 4).toNat ∨
      ((w.extractLsb' 0 4 = 2#4 ∨ w.extractLsb' 0 4 = 3#4) ∧ w.extractLsb' 4 4 ≠ 0#4))) ∧
  ∀ (s : State) (w : Word) (rest : List HostOp), s.seq = none → s.host = .write 0 w :: rest → decode w = .illegal →
    ∃ st, step s = .next { s with host := rest, status := st } ∧
      StatusBecomes s.status st .illegalCommand (statusState s.status)

/-- 30_encoding.md R48 to R58: decoding the encoding of a well-formed command gives it back, and a word that decodes to a command is
its encoding: no bit of a legal word is dropped, and no second word stands for a command. -/
def Obligations.DecodeAndEncodeAgree : Prop :=
  (∀ i : Instr, i.wellFormed = true → decode (encode i) = .instr i) ∧
  ∀ (w : Word) (i : Instr), decode w = .instr i → encode i = w

/-! ### CONSTRUCT and BLKSIZE -/

/-- 40_commands.md R64: CONSTRUCT.ECB always succeeds, writes CFG and STATUS, and nothing else. -/
def Obligations.ConstructEcbCompletes : Prop :=
  ∀ d : Direction, encode (.constructEcb d) = (match d with | .encrypt => 0x01#32 | .decrypt => 0x11#32) ∧
    ∀ s : State, ∃ st,
      exec (.constructEcb d) s =
        .next { s with cfg := (match d with | .encrypt => 0x00#32 | .decrypt => 0x10#32), status := st } ∧
      StatusBecomes s.status st .ok stateReady

/-- 40_commands.md R63: CONSTRUCT.CBC. With `ARG1 != 16` code 1 and nothing else; with `ARG1 = 16` and a readable IV range CHAIN is
the 16 bytes at ARG0, CFG is 0x20 or 0x30, and nothing else changes. -/
def Obligations.ConstructCbcCompletes : Prop :=
  ∀ (d : Direction) (s : State),
    encode (.constructCbc d) = (match d with | .encrypt => 0x21#32 | .decrypt => 0x31#32) ∧
    (s.arg1 ≠ 16#32 → ∃ st, exec (.constructCbc d) s = .next { s with status := st } ∧
      StatusBecomes s.status st .invalidKeyOrIV (statusState s.status)) ∧
    (IvOk s → ∃ st iv,
      exec (.constructCbc d) s =
        .next { s with
          chain := some iv, cfg := (match d with | .encrypt => 0x20#32 | .decrypt => 0x30#32), status := st } ∧
      (∀ j : Fin Config.B, iv[j] = s.mem.read (s.arg0.toNat + j)) ∧
      StatusBecomes s.status st .ok stateReady)

/-- 40_commands.md R65: CONSTRUCT.CFB. -/
def Obligations.ConstructCfbCompletes : Prop :=
  ∀ (d : Direction) (s : State),
    encode (.constructCfb d) = (match d with | .encrypt => 0x41#32 | .decrypt => 0x51#32) ∧
    (s.arg1 ≠ 16#32 → ∃ st, exec (.constructCfb d) s = .next { s with status := st } ∧
      StatusBecomes s.status st .invalidKeyOrIV (statusState s.status)) ∧
    (IvOk s → ∃ st iv,
      exec (.constructCfb d) s =
        .next { s with
          ext := some (Config.given.extInit .cfb Config.given.enc Config.given.dec d iv)
          cfg := (match d with | .encrypt => 0x40#32 | .decrypt => 0x50#32), status := st } ∧
      (∀ j : Fin Config.B, iv[j] = s.mem.read (s.arg0.toNat + j)) ∧
      StatusBecomes s.status st .ok stateReady)

/-- 40_commands.md R66: CONSTRUCT.OFB, whose EXT does not depend on the direction; nor does a later CRYPT. -/
def Obligations.ConstructOfbCompletes : Prop :=
  ∀ (d : Direction) (s : State),
    encode (.constructOfb d) = (match d with | .encrypt => 0x61#32 | .decrypt => 0x71#32) ∧
    (s.arg1 ≠ 16#32 → ∃ st, exec (.constructOfb d) s = .next { s with status := st } ∧
      StatusBecomes s.status st .invalidKeyOrIV (statusState s.status)) ∧
    (IvOk s → ∃ st iv,
      exec (.constructOfb d) s =
        .next { s with
          ext := some (Config.given.extInit .ofb Config.given.enc Config.given.dec d iv)
          cfg := (match d with | .encrypt => 0x60#32 | .decrypt => 0x70#32), status := st } ∧
      (∀ j : Fin Config.B, iv[j] = s.mem.read (s.arg0.toNat + j)) ∧
      (∀ d', Config.given.extInit .ofb Config.given.enc Config.given.dec d' iv =
        Config.given.extInit .ofb Config.given.enc Config.given.dec d iv) ∧
      StatusBecomes s.status st .ok stateReady) ∧
    (s.cfg = 0x60#32 → ∀ t, exec .crypt s = .next t →
      exec .crypt { s with cfg := 0x70#32 } = .next { t with cfg := 0x70#32 })

/-- 40_commands.md R67: CONSTRUCT.CTR, whose EXT does not depend on the direction; nor does a later CRYPT. -/
def Obligations.ConstructCtrCompletes : Prop :=
  ∀ (d : Direction) (s : State),
    encode (.constructCtr d) = (match d with | .encrypt => 0x81#32 | .decrypt => 0x91#32) ∧
    (s.arg1 ≠ 16#32 → ∃ st, exec (.constructCtr d) s = .next { s with status := st } ∧
      StatusBecomes s.status st .invalidKeyOrIV (statusState s.status)) ∧
    (IvOk s → ∃ st iv,
      exec (.constructCtr d) s =
        .next { s with
          ext := some (Config.given.extInit .ctr Config.given.enc Config.given.dec d iv)
          cfg := (match d with | .encrypt => 0x80#32 | .decrypt => 0x90#32), status := st } ∧
      (∀ j : Fin Config.B, iv[j] = s.mem.read (s.arg0.toNat + j)) ∧
      (∀ d', Config.given.extInit .ctr Config.given.enc Config.given.dec d' iv =
        Config.given.extInit .ctr Config.given.enc Config.given.dec d iv) ∧
      StatusBecomes s.status st .ok stateReady) ∧
    (s.cfg = 0x80#32 → ∀ t, exec .crypt s = .next t →
      exec .crypt { s with cfg := 0x90#32 } = .next { t with cfg := 0x90#32 })

/-- 20_memory.md R37, R38, R40 (U3, U7, U4): where a CONSTRUCT with an IV of the right length stops. The order of the three is the
model's choice (log 12), as are the windows (log 4, log 5). -/
def Obligations.ConstructStopsOnItsIvRange : Prop :=
  ∀ (i : Instr) (d : Direction) (s : State),
    i ∈ [Instr.constructCbc d, Instr.constructCfb d, Instr.constructOfb d, Instr.constructCtr d] → s.arg1 = 16#32 →
    (2 ^ 32 < ivAddr s + 16 → exec i s = .refused (.wrappedRange (ivAddr s) 16)) ∧
    (ivAddr s + 16 ≤ 2 ^ 32 → touchesDevice s.regions (ivAddr s) 16 = true →
      exec i s = .refused (.deviceRange (ivAddr s) 16)) ∧
    (ivAddr s + 16 ≤ 2 ^ 32 → touchesDevice s.regions (ivAddr s) 16 = false →
      admits s.regions (ivAddr s) 16 .read = false → exec i s = .fault (.notAdmitted .read (ivAddr s) 16))

/-- 40_commands.md R68: BLKSIZE, in every state. -/
def Obligations.BlksizeCompletes : Prop :=
  encode .blksize = 0x02#32 ∧
  ∀ s : State, ∃ st, exec .blksize s = .next { s with result := 16#32, status := st } ∧
    StatusBecomes s.status st .ok (statusState s.status)

/-! ### CRYPT -/

/-- 40_commands.md R69: the three checks in their order, each with its code; nothing but STATUS changes. -/
def Obligations.CryptChecksInOrder : Prop :=
  encode .crypt = 0x03#32 ∧
  ∀ s : State,
    (statusState s.status ≠ 1#2 → ∃ st, exec .crypt s = .next { s with status := st } ∧
      StatusBecomes s.status st .notConstructed (statusState s.status)) ∧
    (statusState s.status = 1#2 → s.arg3.toNat % 16 ≠ 0 → ∃ st, exec .crypt s = .next { s with status := st } ∧
      StatusBecomes s.status st .invalidLength (statusState s.status)) ∧
    (statusState s.status = 1#2 → s.arg3.toNat % 16 = 0 → s.arg1.toNat < s.arg3.toNat →
      ∃ st, exec .crypt s = .next { s with status := st } ∧
        StatusBecomes s.status st .bufferTooSmall (statusState s.status))

/-- 40_commands.md R71, first item: a CRYPT of length 0 succeeds and touches nothing, whatever its addresses. -/
def Obligations.CryptOfLengthZero : Prop :=
  ∀ s : State, statusState s.status = 1#2 → s.arg3 = 0#32 →
    ∃ st, exec .crypt s = .next { s with status := st } ∧ StatusBecomes s.status st .ok stateReady

/-- 60_exceptions.md R101 to R104, R109: which word completes with which code, exactly when, in the order of priority. -/
def Obligations.CompletionCodesExactly : Prop :=
  ∀ (w : Word) (s t : State), runWord w s = .next t →
    (statusCode t.status = 1#4 ↔
      (∃ i d, decode w = .instr i ∧
        i ∈ [Instr.constructCbc d, Instr.constructCfb d, Instr.constructOfb d, Instr.constructCtr d]) ∧
        s.arg1 ≠ 16#32) ∧
    (statusCode t.status = 2#4 ↔
      decode w = .instr .crypt ∧ statusState s.status = 1#2 ∧ s.arg3.toNat % 16 ≠ 0) ∧
    (statusCode t.status = 3#4 ↔
      decode w = .instr .crypt ∧ statusState s.status = 1#2 ∧ s.arg3.toNat % 16 = 0 ∧ s.arg1.toNat < s.arg3.toNat) ∧
    (statusCode t.status = 4#4 ↔ decode w = .reservedMode) ∧
    (statusCode t.status = 5#4 ↔ decode w = .instr .crypt ∧ statusState s.status ≠ 1#2) ∧
    (statusCode t.status = 6#4 ↔ decode w = .illegal) ∧
    (statusCode t.status).toNat ≤ 6

/-- 41_cbc_block_ops.md R73: CBC.ENC of one block, for any primitive, wherever the destination lies. Where CHAIN holds no value, going on
with the free value `chainValue` is the model's choice (log 7, DESIGN CHOICE), not R73's: U8 and D17 treat that read as a fault. -/
def Obligations.CbcEncOneBlock : Prop :=
  ∀ (c : Collaborators) (d a : Nat) (s : State), s.mem.wf →
    ∃ t, cbcEnc c d a s = .next t ∧
      t.work = some (xorBlock (s.chainValue c) (s.mem.readBlock a)) ∧
      t.chain = some (c.enc (xorBlock (s.chainValue c) (s.mem.readBlock a))) ∧
      t.mem.readBlock d = c.enc (xorBlock (s.chainValue c) (s.mem.readBlock a)) ∧
      (∀ x, x < d ∨ d + 16 ≤ x → t.mem.read x = s.mem.read x) ∧
      (∀ ch, s.chain = some ch → s.chainValue c = ch) ∧
      t = { s with work := t.work, chain := t.chain, mem := t.mem }

/-- 41_cbc_block_ops.md R74: CBC.DEC of one block, for any primitive, disjoint or in place: CHAIN ends as the ciphertext block that
stood in memory before the operation. Where CHAIN holds no value, going on with the free value `chainValue` is the model's choice
(log 7, DESIGN CHOICE), not R74's: U8 and D17 treat that read as a fault. -/
def Obligations.CbcDecOneBlock : Prop :=
  ∀ (c : Collaborators) (d a : Nat) (s : State), s.mem.wf → (d + 16 ≤ a ∨ a + 16 ≤ d ∨ d = a) →
    ∃ t, cbcDec c d a s = .next t ∧
      t.work = some (c.dec (s.mem.readBlock a)) ∧
      t.chain = some (s.mem.readBlock a) ∧
      t.mem.readBlock d = xorBlock (c.dec (s.mem.readBlock a)) (s.chainValue c) ∧
      (∀ x, x < d ∨ d + 16 ≤ x → t.mem.read x = s.mem.read x) ∧
      (∀ ch, s.chain = some ch → s.chainValue c = ch) ∧
      t = { s with work := t.work, chain := t.chain, mem := t.mem }

/-- 42_mode_selector.md R89, R90: ECB.ENC and ECB.DEC of one block, for any primitive. -/
def Obligations.EcbOneBlock : Prop :=
  ∀ (c : Collaborators) (d a : Nat) (s : State), s.mem.wf →
    (∃ t, ecbEnc c d a s = .next t ∧ t.mem.readBlock d = c.enc (s.mem.readBlock a) ∧
      (∀ x, x < d ∨ d + 16 ≤ x → t.mem.read x = s.mem.read x) ∧ t = { s with mem := t.mem }) ∧
    (∃ t, ecbDec c d a s = .next t ∧ t.mem.readBlock d = c.dec (s.mem.readBlock a) ∧
      (∀ x, x < d ∨ d + 16 ≤ x → t.mem.read x = s.mem.read x) ∧ t = { s with mem := t.mem })

/-- 42_mode_selector.md R94: EXT.BLOCK of one block with the given transforms. Where EXT holds no value, going on with a free value is the
model's choice (log 7). -/
def Obligations.ExtOneBlock : Prop :=
  ∀ (m : ExtMode) (d a : Nat) (s : State), s.mem.wf →
    ∃ t, extBlock Config.given.toCollaborators m d a s = .next t ∧
      t.ext = some (Config.given.extXform m (s.extValue Config.given.toCollaborators) (s.mem.readBytes a 16)).1 ∧
      t.mem.readBytes d 16 =
        (Config.given.extXform m (s.extValue Config.given.toCollaborators) (s.mem.readBytes a 16)).2 ∧
      (∀ x, x < d ∨ d + 16 ≤ x → t.mem.read x = s.mem.read x) ∧
      (∀ e, s.ext = some e → s.extValue Config.given.toCollaborators = e) ∧
      t = { s with ext := t.ext, mem := t.mem }

/-- 40_commands.md R70 with 41_cbc_block_ops.md R73, R82: CRYPT of a CBC encrypt instance completes; the destination blocks, CHAIN and
WORK follow the recurrence; every other byte and register is unchanged. Where CHAIN holds no value, going on with a free value is the
model's choice (log 7). -/
def Obligations.CryptCbcEncryptCompletes : Prop :=
  ∀ (s : State) (ch : Block), CryptRuns s → cfgMode s.cfg = some .cbc → cfgDir s.cfg = .encrypt →
    s.chainValue Config.given.toCollaborators = ch →
    ∃ st m,
      exec .crypt s =
        .next { s with
          chain := lastBlock s.chain (cbcEncStream Config.given.enc ch (srcBlocks s))
          work := cbcEncWork Config.given.enc ch s.work (srcBlocks s)
          mem := m
          status := st } ∧
      blocksAt m (dstAddr s) (blockCount s) = cbcEncStream Config.given.enc ch (srcBlocks s) ∧
      (∀ a, OutsideDst s a → Memory.read m a = s.mem.read a) ∧
      StatusBecomes s.status st .ok stateReady

/-- 40_commands.md R70 with 41_cbc_block_ops.md R74, R83: CRYPT of a CBC decrypt instance completes. Where CHAIN holds no value,
going on with a free value is the model's choice (log 7). -/
def Obligations.CryptCbcDecryptCompletes : Prop :=
  ∀ (s : State) (ch : Block), CryptRuns s → cfgMode s.cfg = some .cbc → cfgDir s.cfg = .decrypt →
    s.chainValue Config.given.toCollaborators = ch →
    ∃ st m,
      exec .crypt s =
        .next { s with
          chain := lastBlock s.chain (srcBlocks s)
          work := cbcDecWork Config.given.dec s.work (srcBlocks s)
          mem := m
          status := st } ∧
      blocksAt m (dstAddr s) (blockCount s) = cbcDecStream Config.given.dec ch (srcBlocks s) ∧
      (∀ a, OutsideDst s a → Memory.read m a = s.mem.read a) ∧
      StatusBecomes s.status st .ok stateReady

/-- 40_commands.md R70 with 42_mode_selector.md R89, R90, R91: CRYPT of an ECB instance completes, in either direction. -/
def Obligations.CryptEcbCompletes : Prop :=
  ∀ s : State, CryptRuns s → cfgMode s.cfg = some .ecb →
    ∃ st m, exec .crypt s = .next { s with mem := m, status := st } ∧
      blocksAt m (dstAddr s) (blockCount s) =
        (srcBlocks s).map (match cfgDir s.cfg with | .encrypt => Config.given.enc | .decrypt => Config.given.dec) ∧
      (∀ a, OutsideDst s a → Memory.read m a = s.mem.read a) ∧
      StatusBecomes s.status st .ok stateReady

/-- 40_commands.md R70 with 42_mode_selector.md R94, R97: CRYPT of a CFB, OFB or CTR instance completes, in either direction: by
`EXT_STREAM` a nonempty source is one application of the given transform. Where EXT holds no value, going on with a free value is the
model's choice (log 7). -/
def Obligations.CryptExtCompletes : Prop :=
  ∀ (s : State) (k : ExtMode) (e : ExtState), CryptRuns s → cfgMode s.cfg = some (.ext k) →
    s.extValue Config.given.toCollaborators = e → srcLen s ≠ 0 →
    ∃ st m,
      exec .crypt s =
        .next { s with
          ext := some (Config.given.extXform k e (s.mem.readBytes (srcAddr s) (srcLen s))).1
          mem := m
          status := st } ∧
      Memory.readBytes m (dstAddr s) (srcLen s) =
        (Config.given.extXform k e (s.mem.readBytes (srcAddr s) (srcLen s))).2 ∧
      (∀ a, OutsideDst s a → Memory.read m a = s.mem.read a) ∧
      StatusBecomes s.status st .ok stateReady

/-- 20_memory.md R45, 40_commands.md R61, 42_mode_selector.md R91, R97: the frame of CRYPT in every mode, success or failing check. -/
def Obligations.CryptFrame : Prop :=
  ∀ s t : State, s.mem.wf → exec .crypt s = .next t →
    (∀ a, OutsideDst s a → t.mem.read a = s.mem.read a) ∧
    (cfgMode s.cfg ≠ some .cbc → t.chain = s.chain ∧ t.work = s.work) ∧
    ((∀ k, cfgMode s.cfg ≠ some (.ext k)) → t.ext = s.ext) ∧
    statusState t.status = statusState s.status ∧
    t = { s with chain := t.chain, work := t.work, ext := t.ext, mem := t.mem, status := t.status }

/-- 10_state.md R14, R15, R16, R18, R20, R21; 20_memory.md R34: which command can change which register and memory. -/
def Obligations.RegistersWrittenOnlyBy : Prop :=
  ∀ (i : Instr) (s t : State), exec i s = .next t →
    (t.chain ≠ s.chain → (∃ d, i = .constructCbc d) ∨ (i = .crypt ∧ cfgMode s.cfg = some .cbc)) ∧
    (t.work ≠ s.work → i = .crypt ∧ cfgMode s.cfg = some .cbc) ∧
    (t.ext ≠ s.ext →
      (∃ d, i ∈ [Instr.constructCfb d, Instr.constructOfb d, Instr.constructCtr d]) ∨
        (i = .crypt ∧ ∃ k, cfgMode s.cfg = some (.ext k))) ∧
    (t.cfg ≠ s.cfg → (∃ m d, i = constructInstr m d) ∧ statusCode t.status = 0#4) ∧
    (t.result ≠ s.result → i = .blksize) ∧
    (t.mem ≠ s.mem → i = .crypt ∧ statusCode t.status = 0#4) ∧
    t.arg0 = s.arg0 ∧ t.arg1 = s.arg1 ∧ t.arg2 = s.arg2 ∧ t.arg3 = s.arg3 ∧ t.seq = s.seq ∧ t.regions = s.regions ∧
    t.host = s.host ∧ t.returned = s.returned

/-- 10_state.md R29, R30: READY after a successful CONSTRUCT; after every other completion the state the command started in. -/
def Obligations.StateTransitionsOfCommands : Prop :=
  ∀ (w : Word) (s t : State), runWord w s = .next t →
    ((∃ m d, decode w = .instr (constructInstr m d)) ∧ statusCode t.status = 0#4 ∧ statusState t.status = 1#2) ∨
    (¬ ((∃ m d, decode w = .instr (constructInstr m d)) ∧ statusCode t.status = 0#4) ∧
      statusState t.status = statusState s.status)

/-- 60_exceptions.md R110: a command that completes with a nonzero code has changed nothing but CODE and STICKY (in STATUS too: STATE
and every other bit are kept), and has read no byte of memory: with any other memory it does the same. -/
def Obligations.FailureIsAtomic : Prop :=
  ∀ (w : Word) (s t : State), runWord w s = .next t → statusCode t.status ≠ 0#4 →
    t = { s with status := t.status } ∧
    (∃ code, code ≠ .ok ∧ StatusBecomes s.status t.status code (statusState s.status)) ∧ statusSticky t.status = 1#1 ∧
    ∀ m, runWord w { s with mem := m } = .next { t with mem := m }

/-- 10_state.md R24, R33: STICKY after a command, and that only a reset clears it. -/
def Obligations.StickyIsClearedOnlyByReset : Prop :=
  (∀ (w : Word) (s t : State), runWord w s = .next t →
    (statusSticky t.status = 1#1 ↔ statusSticky s.status = 1#1 ∨ statusCode t.status ≠ 0#4)) ∧
  ∀ s t : State, step s = .next t → statusSticky s.status = 1#1 → statusSticky t.status ≠ 1#1 →
    s.seq = none ∧ ∃ rest, s.host = .reset :: rest ∨ ∃ w k, s.host = .resetDuring w k :: rest

/-- 20_memory.md R37, R38, R40, R43 (U1, U3, U4, U7): where a CRYPT that passed its checks stops. The order
of the tests is the model's choice (log 12), as are the windows (log 4, log 5). -/
def Obligations.CryptStopsOnItsRanges : Prop :=
  ∀ s : State, CryptChecksPass s → srcLen s ≠ 0 →
    (2 ^ 32 < srcAddr s + srcLen s → exec .crypt s = .refused (.wrappedRange (srcAddr s) (srcLen s))) ∧
    (srcAddr s + srcLen s ≤ 2 ^ 32 → 2 ^ 32 < dstAddr s + srcLen s →
      exec .crypt s = .refused (.wrappedRange (dstAddr s) (srcLen s))) ∧
    (srcAddr s + srcLen s ≤ 2 ^ 32 → dstAddr s + srcLen s ≤ 2 ^ 32 →
      ((dstAddr s ≠ srcAddr s ∧ srcAddr s < dstAddr s + srcLen s ∧ dstAddr s < srcAddr s + srcLen s) →
        exec .crypt s = .refused .inexactOverlap) ∧
      (¬ (dstAddr s ≠ srcAddr s ∧ srcAddr s < dstAddr s + srcLen s ∧ dstAddr s < srcAddr s + srcLen s) →
        (touchesDevice s.regions (srcAddr s) (srcLen s) = true →
          exec .crypt s = .refused (.deviceRange (srcAddr s) (srcLen s))) ∧
        (touchesDevice s.regions (srcAddr s) (srcLen s) = false →
          admits s.regions (srcAddr s) (srcLen s) .read = false →
          exec .crypt s = .fault (.notAdmitted .read (srcAddr s) (srcLen s))) ∧
        (touchesDevice s.regions (srcAddr s) (srcLen s) = false →
          admits s.regions (srcAddr s) (srcLen s) .read = true →
          touchesDevice s.regions (dstAddr s) (srcLen s) = true →
          exec .crypt s = .refused (.deviceRange (dstAddr s) (srcLen s))) ∧
        (touchesDevice s.regions (srcAddr s) (srcLen s) = false →
          admits s.regions (srcAddr s) (srcLen s) .read = true →
          touchesDevice s.regions (dstAddr s) (srcLen s) = false →
          admits s.regions (dstAddr s) (srcLen s) .write = false →
          exec .crypt s = .fault (.notAdmitted .write (dstAddr s) (srcLen s)))))

/-! ### Laws of the streams -/

/-- 20_memory.md R42, 41_cbc_block_ops.md R86: in place and disjoint give the same destination bytes, CHAIN, WORK and EXT, in every
mode and direction. -/
def Obligations.InPlaceEqualsDisjoint : Prop :=
  ∀ s s' t : State, CryptRuns s → CryptRuns s' → dstAddr s = srcAddr s →
    disjoint (dstAddr s') (srcAddr s') (srcLen s') = true → s'.cfg = s.cfg → s'.chain = s.chain → s'.work = s.work →
    s'.ext = s.ext → srcLen s' = srcLen s → srcBlocks s' = srcBlocks s → exec .crypt s = .next t →
    ∃ t', exec .crypt s' = .next t' ∧ t'.chain = t.chain ∧ t'.work = t.work ∧ t'.ext = t.ext ∧
      dstBlocks s' t' = dstBlocks s t

/-- 41_cbc_block_ops.md R79, 10_state.md R33 item 3: after a CBC CRYPT of at least one block CHAIN is the last ciphertext block: the
last block written when encrypting, the last source block as it was read when decrypting. -/
def Obligations.ChainHoldsLastCiphertext : Prop :=
  ∀ (s t : State) (n : Nat), CryptRuns s → cfgMode s.cfg = some .cbc → blockCount s = n + 1 → exec .crypt s = .next t →
    (cfgDir s.cfg = .encrypt → t.chain = some (t.mem.readBlock (dstBlockAddr s n))) ∧
    (cfgDir s.cfg = .decrypt → t.chain = some (s.mem.readBlock (srcBlockAddr s n)))

/-- 41_cbc_block_ops.md R84: the round trip: what a CBC encrypt instance writes, a CBC decrypt instance with the same primitive and
IV turns back into the plaintext, wherever either of them works. -/
def Obligations.CbcRoundTrip : Prop :=
  ∀ (s : State) (iv : Block), CryptRuns s → cfgMode s.cfg = some .cbc → cfgDir s.cfg = .encrypt → s.chain = some iv →
    ∃ t, exec .crypt s = .next t ∧
      ∀ u : State, CryptRuns u → cfgMode u.cfg = some .cbc → cfgDir u.cfg = .decrypt → u.chain = some iv →
        srcBlocks u = dstBlocks s t →
        ∃ v, exec .crypt u = .next v ∧ dstBlocks u v = srcBlocks s ∧ v.chain = t.chain

/-- 41_cbc_block_ops.md R85 (a): a change of plaintext block `i` alone changes the ciphertext blocks `i` to the end and no other. -/
def Obligations.CbcEncryptPropagation : Prop :=
  ∀ (s s' : State) (iv : Block) (i : Nat), CryptRuns s → CryptRuns s' →
    cfgMode s.cfg = some .cbc → cfgDir s.cfg = .encrypt → cfgMode s'.cfg = some .cbc → cfgDir s'.cfg = .encrypt →
    s.chain = some iv → s'.chain = some iv → blockCount s' = blockCount s → i < blockCount s →
    (srcBlocks s)[i]? ≠ (srcBlocks s')[i]? → (∀ k, k ≠ i → (srcBlocks s)[k]? = (srcBlocks s')[k]?) →
    ∃ t t', exec .crypt s = .next t ∧ exec .crypt s' = .next t' ∧
      ∀ k < blockCount s, (k < i → (dstBlocks s t)[k]? = (dstBlocks s' t')[k]?) ∧
        (i ≤ k → (dstBlocks s t)[k]? ≠ (dstBlocks s' t')[k]?)

/-- 41_cbc_block_ops.md R85 (b): a change of ciphertext block `i` alone changes the plaintext blocks `i` and `i + 1` and no other; in
block `i + 1` by the XOR difference of the two ciphertext blocks; when `i` is the last block, CHAIN differs. -/
def Obligations.CbcDecryptPropagation : Prop :=
  ∀ (s s' : State) (iv x x' : Block) (i : Nat), CryptRuns s → CryptRuns s' →
    cfgMode s.cfg = some .cbc → cfgDir s.cfg = .decrypt → cfgMode s'.cfg = some .cbc → cfgDir s'.cfg = .decrypt →
    s.chain = some iv → s'.chain = some iv → blockCount s' = blockCount s →
    (srcBlocks s)[i]? = some x → (srcBlocks s')[i]? = some x' → x ≠ x' →
    (∀ k, k ≠ i → (srcBlocks s)[k]? = (srcBlocks s')[k]?) →
    ∃ t t', exec .crypt s = .next t ∧ exec .crypt s' = .next t' ∧
      (dstBlocks s t)[i]? ≠ (dstBlocks s' t')[i]? ∧
      (i + 1 < blockCount s → ∃ p p', (dstBlocks s t)[i + 1]? = some p ∧ (dstBlocks s' t')[i + 1]? = some p' ∧
        xorBlock p p' = xorBlock x x') ∧
      (∀ k, k ≠ i → k ≠ i + 1 → (dstBlocks s t)[k]? = (dstBlocks s' t')[k]?) ∧
      (i + 1 = blockCount s → t.chain ≠ t'.chain)

/-- 40_commands.md R72: a stream given as two CRYPT commands leaves the memory and the hidden registers of one. -/
def Obligations.SplittingAStream : Prop :=
  ∀ (s t : State) (a b : Nat), CryptRuns s → a + b = blockCount s → exec .crypt s = .next t →
    ∃ u v, exec .crypt { s with arg3 := BitVec.ofNat 32 (a * 16) } = .next u ∧
      exec .crypt
        { u with
          arg0 := s.arg0 + BitVec.ofNat 32 (a * 16)
          arg2 := s.arg2 + BitVec.ofNat 32 (a * 16)
          arg3 := BitVec.ofNat 32 (b * 16) } = .next v ∧
      v.mem = t.mem ∧ v.chain = t.chain ∧ v.work = t.work ∧ v.ext = t.ext ∧ v.status = t.status

/-- 42_mode_selector.md R92: ECB has no memory: equal source blocks give equal destination blocks, within one CRYPT and across. -/
def Obligations.EcbHasNoMemory : Prop :=
  ∀ (s s' : State) (i i' : Nat), CryptRuns s → CryptRuns s' → cfgMode s.cfg = some .ecb → cfgMode s'.cfg = some .ecb →
    cfgDir s'.cfg = cfgDir s.cfg → (srcBlocks s)[i]? = (srcBlocks s')[i']? →
    ∃ t t', exec .crypt s = .next t ∧ exec .crypt s' = .next t' ∧ (dstBlocks s t)[i]? = (dstBlocks s' t')[i']?

/-- 42_mode_selector.md R96, which the spec marks as its own inference ("derived: from the meaning of Encrypt and Decrypt"): the round
trip of CFB, for a stream given as one CRYPT on each side: what an encrypting instance writes, a decrypting instance with the same IV
turns back, wherever either of them works. It rests on EXT_INV, which the model carries as DEDUCED (log 9). -/
def Obligations.CfbRoundTrip : Prop :=
  ∀ (s : State) (iv : Block), CryptRuns s → cfgMode s.cfg = some (.ext .cfb) →
    s.ext = some (Config.given.extInit .cfb Config.given.enc Config.given.dec .encrypt iv) → srcLen s ≠ 0 →
    ∃ t, exec .crypt s = .next t ∧
      ∀ u : State, CryptRuns u → cfgMode u.cfg = some (.ext .cfb) →
        u.ext = some (Config.given.extInit .cfb Config.given.enc Config.given.dec .decrypt iv) →
        srcBlocks u = dstBlocks s t →
        ∃ v, exec .crypt u = .next v ∧ dstBlocks u v = srcBlocks s

/-- 42_mode_selector.md R95: OFB and CTR ignore the direction: a CONSTRUCT in the other direction differs in CFG alone, and so does a
later CRYPT; applied twice from one IV, in any two directions, the transform gives the source back. The last clause, for a stream given
as one CRYPT on each side, is the spec's own inference ("derived: symmetric in AESDEMO's sentence") and rests on EXT_INV with EXT_SYM,
which the model carries as DEDUCED (log 9). -/
def Obligations.OfbAndCtrIgnoreDirection : Prop :=
  ∀ (k : ExtMode) (d d' : Direction), k = .ofb ∨ k = .ctr →
    (∀ s t : State, IvOk s → exec (constructInstr (.ext k) d) s = .next t →
      t.cfg = cfgWord (.ext k) d ∧
        exec (constructInstr (.ext k) d') s = .next { t with cfg := cfgWord (.ext k) d' }) ∧
    (∀ s t : State, s.cfg = cfgWord (.ext k) d → exec .crypt s = .next t →
      exec .crypt { s with cfg := cfgWord (.ext k) d' } = .next { t with cfg := cfgWord (.ext k) d' }) ∧
    ∀ (s : State) (iv : Block), CryptRuns s → cfgMode s.cfg = some (.ext k) →
      s.ext = some (Config.given.extInit k Config.given.enc Config.given.dec d iv) → srcLen s ≠ 0 →
      ∃ t, exec .crypt s = .next t ∧
        ∀ u : State, CryptRuns u → cfgMode u.cfg = some (.ext k) →
          u.ext = some (Config.given.extInit k Config.given.enc Config.given.dec d' iv) →
          srcBlocks u = dstBlocks s t →
          ∃ v, exec .crypt u = .next v ∧ dstBlocks u v = srcBlocks s

/-- 42_mode_selector.md R99: what a mode does not use cannot influence its results: CRYPT with other leftovers does the same. -/
def Obligations.LeftoversDoNotMatter : Prop :=
  ∀ s t : State, s.mem.wf → exec .crypt s = .next t →
    (cfgMode s.cfg = some .ecb → ∀ ch wk e,
      exec .crypt { s with chain := ch, work := wk, ext := e } = .next { t with chain := ch, work := wk, ext := e }) ∧
    ((∃ k, cfgMode s.cfg = some (.ext k)) → ∀ ch wk,
      exec .crypt { s with chain := ch, work := wk } = .next { t with chain := ch, work := wk }) ∧
    (cfgMode s.cfg = some .cbc → ∀ wk e, ∃ wk',
      exec .crypt { s with work := wk, ext := e } = .next { t with work := wk', ext := e })

/-! ### The host, the phases, the invariant -/

/-- 10_state.md R22: the register map. -/
def Obligations.HostRegisterMap : Prop :=
  ∀ (s : State) (rest : List HostOp) (n : Nat) (v : Word), s.seq = none →
    (s.host = .write n v :: rest →
      (n = 0 → step s = runWord v { s with host := rest }) ∧
      (n = 1 ∨ n = 2 ∨ n = 3 → step s = .next { s with host := rest }) ∧
      (n = 4 → step s = .next { s with host := rest, arg0 := v }) ∧
      (n = 5 → step s = .next { s with host := rest, arg1 := v }) ∧
      (n = 6 → step s = .next { s with host := rest, arg2 := v }) ∧
      (n = 7 → step s = .next { s with host := rest, arg3 := v }) ∧
      (7 < n → step s = .refused (.registerNumber n))) ∧
    (s.host = .read n :: rest →
      (n = 0 → step s = .next { s with host := rest, returned := .reg 0 0#32 :: s.returned }) ∧
      (n = 1 → step s = .next { s with host := rest, returned := .reg 1 s.status :: s.returned }) ∧
      (n = 2 → step s = .next { s with host := rest, returned := .reg 2 s.cfg :: s.returned }) ∧
      (n = 3 → step s = .next { s with host := rest, returned := .reg 3 s.result :: s.returned }) ∧
      (n = 4 → step s = .next { s with host := rest, returned := .reg 4 s.arg0 :: s.returned }) ∧
      (n = 5 → step s = .next { s with host := rest, returned := .reg 5 s.arg1 :: s.returned }) ∧
      (n = 6 → step s = .next { s with host := rest, returned := .reg 6 s.arg2 :: s.returned }) ∧
      (n = 7 → step s = .next { s with host := rest, returned := .reg 7 s.arg3 :: s.returned }) ∧
      (7 < n → step s = .refused (.registerNumber n)))

/-- 20_memory.md R40, R46: data memory is plain storage for the host between commands: a load right after a store returns the stored
byte at its address and the earlier byte at any other. That the platform's map does not limit the host is the model's choice
(log 17). -/
def Obligations.HostMemoryIsPlainStorage : Prop :=
  ∀ (s : State) (a b : Word) (v : Byte) (rest : List HostOp), s.seq = none → s.mem.wf →
    s.host = .store a v :: .load b :: rest →
    ∃ t u, step s = .next t ∧ step t = .next u ∧ u.mem = t.mem ∧ u.host = rest ∧
      u.returned = .byte b (if b = a then v else s.mem.read b.toNat) :: s.returned ∧
      u = { s with mem := u.mem, host := u.host, returned := u.returned }

/-- 10_state.md R25: no step changes the platform's memory map. -/
def Obligations.PlatformMapIsConstant : Prop :=
  ∀ s t : State, step s = .next t → t.regions = s.regions

/-- 41_cbc_block_ops.md R81, 00_scope.md R10, 10_state.md R31: the finer level refines the command. A command walked phase by phase
ends, after some number of steps, in exactly the outcome of the same command run as one step; until then a CRYPT is BUSY and the host
has not moved. The queue of the host and the phase of the modes other than CBC are the model's (log 1, log 3). -/
def Obligations.PhasesRefineTheCommand : Prop :=
  ∀ (s : State) (w : Word) (rest : List HostOp), s.seq = none → s.host = .walk w :: rest →
    ∃ k, core.run (k + 1) s = step { s with host := .write 0 w :: rest } ∧
      ∀ j, 0 < j → j ≤ k → ∃ u : State, core.run j s = .next u ∧ statusState u.status = stateBusy ∧ u.host = rest

/-- 70_reset_and_hazards.md R116: an external reset during a command: the engine takes its reset values; of the destination of a
running CRYPT the first `k` bytes are written, every other byte of memory is as it was; other commands write no memory. That the reset falls between two byte writes is the model's reading
(log 11). -/
def Obligations.ResetDuringACommand : Prop :=
  ∀ (s u : State) (w : Word) (k : Nat) (rest : List HostOp), s.seq = none → s.host = .resetDuring w k :: rest →
    s.mem.wf → runWord w { s with host := rest } = .next u →
    ∃ t, step s = .next t ∧
      t = { State.reset with mem := t.mem, regions := s.regions, host := rest, returned := s.returned } ∧
      (decode w = .instr .crypt → CryptChecksPass s → ∀ a, t.mem.read a =
        if dstAddr s ≤ a ∧ a < dstAddr s + min k (srcLen s) then u.mem.read a else s.mem.read a) ∧
      (¬ (decode w = .instr .crypt ∧ CryptChecksPass s) → t.mem = s.mem)

/-- 10_state.md R33: the invariant holds at reset; the form of memory is the model's (log 6). -/
def Obligations.InvariantHoldsAtReset : Prop := Inv State.reset

/-- 10_state.md R33: every step keeps the invariant; the form of memory is the model's (log 6). -/
def Obligations.StepKeepsTheInvariant : Prop :=
  ∀ s t : State, Inv s → step s = .next t → Inv t

/-- 10_state.md R26 (U8), R18 (U14): from a state that meets the invariant no command and no phase reads CHAIN, WORK or EXT while it
holds no value: whatever such a read would give (log 7), the outcome is the same. And none meets a reserved CFG.MODE. -/
def Obligations.NoEmptyRegisterIsRead : Prop :=
  ∀ (s : State) (c : Collaborators) (x y : Block) (e : ExtState), Inv s →
    c = { Config.given.toCollaborators with unwrittenChain := x, unwrittenWork := y, unwrittenExt := e } →
    cryptWith c s = exec .crypt s ∧ (∀ q, s.seq = some q → phaseStep c q s = step s) ∧ step s ≠ .fault .reservedCfgMode
end

