-- ==== Sys2Proof/Laws/Memory.lean ====
section
/-! SUPPORT. Data memory: every operation keeps the canonical form and the address bound, and what a read gives after a write. -/

namespace Sys2Proof.Machine

@[simp] theorem Memory.wf_nil : Memory.wf ([] : Memory) := by simp [Memory.wf]

theorem Memory.wf_cons {k : Nat} {w : Byte} {m : Memory} :
    Memory.wf ((k, w) :: m) ↔ (∀ c ∈ m, k < c.1) ∧ w ≠ unlistedByte ∧ Memory.wf m := by
  simp only [Memory.wf, List.map_cons, List.pairwise_cons, List.mem_map, List.mem_cons, forall_exists_index, and_imp,
    forall_apply_eq_imp_iff₂, forall_eq_or_imp]
  tauto

/-- Every address of a memory after a write is the written one or one that was listed. -/
theorem Memory.mem_write {c : Host.Cell} {a : Nat} {v : Byte} {m : Memory} (h : c ∈ Memory.write m a v) :
    c = (a, v) ∨ c ∈ m := by
  induction m with
  | nil =>
    simp only [Memory.write, Memory.cons] at h
    split at h <;> simp_all
  | cons kw rest ih =>
    obtain ⟨k, w⟩ := kw
    simp only [Memory.write, Memory.cons] at h
    split at h
    · split at h <;> simp_all
    · split at h
      · split at h
        · exact .inr (List.mem_cons_of_mem _ h)
        · simp only [List.mem_cons] at h ⊢; tauto
      · simp only [List.mem_cons] at h ⊢
        obtain h | h := h
        · exact .inr (.inl h)
        · obtain h | h := ih h <;> tauto

/-- A write keeps the canonical form. -/
theorem Memory.wf_write {m : Memory} (h : m.wf) (a : Nat) (v : Byte) : (Memory.write m a v).wf := by
  induction m with
  | nil =>
    simp only [Memory.write, Memory.cons]
    split
    · exact Memory.wf_nil
    · rename_i hv; exact Memory.wf_cons.2 ⟨by simp, hv, Memory.wf_nil⟩
  | cons kw rest ih =>
    obtain ⟨k, w⟩ := kw
    obtain ⟨h1, h2, h3⟩ := Memory.wf_cons.1 h
    simp only [Memory.write, Memory.cons]
    split
    · rename_i hak
      split
      · exact h
      · rename_i hv
        refine Memory.wf_cons.2 ⟨?_, hv, h⟩
        intro c hc
        obtain rfl | hc := List.mem_cons.1 hc
        · exact hak
        · exact hak.trans (h1 c hc)
    · split
      · rename_i hak
        split
        · exact h3
        · rename_i hv; exact Memory.wf_cons.2 ⟨by intro c hc; rw [hak]; exact h1 c hc, hv, h3⟩
      · rename_i hlt hne
        refine Memory.wf_cons.2 ⟨?_, h2, ih h3⟩
        intro c hc
        obtain rfl | hc := Memory.mem_write hc
        · show k < a; omega
        · exact h1 c hc

/-- A write inside the address space keeps every listed address inside. -/
theorem Memory.inSpace_write {m : Memory} (h : m.inSpace) {a : Nat} (ha : a < 2 ^ Config.AW) (v : Byte) :
    (Memory.write m a v).inSpace := by
  intro c hc
  obtain rfl | hc := Memory.mem_write hc
  · exact ha
  · exact h c hc

/-- An address below every listed one reads as an unlisted address. -/
theorem Memory.read_of_lt {m : Memory} {a : Nat} (h : ∀ c ∈ m, a < c.1) : Memory.read m a = unlistedByte := by
  induction m with
  | nil => rfl
  | cons kw rest ih =>
    obtain ⟨k, w⟩ := kw
    have hk : a < k := h (k, w) (by simp)
    have : a ≠ k := by omega
    simp only [Memory.read, if_neg this]
    exact ih fun c hc => h c (List.mem_cons_of_mem _ hc)

/-- A read after a write: the written byte at the written address, every other address as before. -/
theorem Memory.read_write {m : Memory} (h : m.wf) (a b : Nat) (v : Byte) :
    Memory.read (Memory.write m a v) b = if b = a then v else Memory.read m b := by
  induction m with
  | nil =>
    simp only [Memory.write, Memory.cons]
    split
    · rename_i hv; simp [Memory.read, hv]
    · simp [Memory.read]
  | cons kw rest ih =>
    obtain ⟨k, w⟩ := kw
    obtain ⟨h1, h2, h3⟩ := Memory.wf_cons.1 h
    simp only [Memory.write, Memory.cons]
    split
    · rename_i hak
      split
      · rename_i hv
        split
        · rename_i hba
          subst hba
          rw [hv]
          refine Memory.read_of_lt fun c hc => ?_
          obtain rfl | hc := List.mem_cons.1 hc
          · exact hak
          · exact hak.trans (h1 c hc)
        · rfl
      · simp [Memory.read]
    · split
      · rename_i hak
        subst hak
        split
        · rename_i hv
          split
          · rename_i hba
            subst hba
            rw [hv]
            exact Memory.read_of_lt h1
          · rename_i hba; simp [Memory.read, hba]
        · simp only [Memory.read]
          split <;> rfl
      · rename_i hlt hne
        simp only [Memory.read, ih h3]
        by_cases hbk : b = k
        · rw [if_pos hbk, if_neg (by omega), if_pos hbk]
        · simp [hbk]

@[simp] theorem Memory.writeBytes_nil (m : Memory) (a : Nat) : Memory.writeBytes m a [] = m := rfl

@[simp] theorem Memory.writeBytes_cons (m : Memory) (a : Nat) (b : Byte) (bs : List Byte) :
    Memory.writeBytes m a (b :: bs) = Memory.writeBytes (Memory.write m a b) (a + 1) bs := rfl

theorem Memory.writeBytes_append (m : Memory) (a : Nat) (bs cs : List Byte) :
    Memory.writeBytes m a (bs ++ cs) = Memory.writeBytes (Memory.writeBytes m a bs) (a + bs.length) cs := by
  induction bs generalizing m a with
  | nil => rfl
  | cons b bs ih =>
    rw [List.cons_append, Memory.writeBytes_cons, Memory.writeBytes_cons, ih, List.length_cons]
    congr 1
    omega

theorem Memory.writeBytes_take_succ (m : Memory) (a n : Nat) (bs : List Byte) (h : n < bs.length) :
    Memory.writeBytes m a (bs.take (n + 1)) = Memory.write (Memory.writeBytes m a (bs.take n)) (a + n) bs[n] := by
  rw [List.take_succ_eq_append_getElem h, Memory.writeBytes_append, List.length_take, Nat.min_eq_left (Nat.le_of_lt h)]
  rfl

theorem Memory.wf_writeBytes {m : Memory} (h : m.wf) (a : Nat) (bs : List Byte) : (Memory.writeBytes m a bs).wf := by
  induction bs generalizing m a with
  | nil => exact h
  | cons b bs ih => exact ih (Memory.wf_write h a b) (a + 1)

theorem Memory.inSpace_writeBytes {m : Memory} (h : m.inSpace) {a : Nat} (bs : List Byte)
    (ha : a + bs.length ≤ 2 ^ Config.AW) : (Memory.writeBytes m a bs).inSpace := by
  induction bs generalizing m a with
  | nil => exact h
  | cons b bs ih =>
    rw [List.length_cons] at ha
    exact ih (Memory.inSpace_write h (by omega) b) (by omega)

/-- A read after a run of byte writes: the written byte inside the run, every other address as before. -/
theorem Memory.read_writeBytes {m : Memory} (h : m.wf) (a b : Nat) (bs : List Byte) :
    Memory.read (Memory.writeBytes m a bs) b =
      if a ≤ b ∧ b < a + bs.length then bs.getD (b - a) 0#8 else Memory.read m b := by
  induction bs generalizing m a with
  | nil => simp
  | cons x xs ih =>
    rw [Memory.writeBytes_cons, ih (Memory.wf_write h a x), Memory.read_write h, List.length_cons]
    by_cases h1 : a + 1 ≤ b ∧ b < a + 1 + xs.length
    · rw [if_pos h1, if_pos (by omega)]
      obtain ⟨k, hk⟩ : ∃ k, b - a = k + 1 := ⟨b - a - 1, by omega⟩
      rw [hk, List.getD_cons_succ]
      congr 1
      omega
    · rw [if_neg h1]
      by_cases h2 : b = a
      · subst h2; simp
      · rw [if_neg h2, if_neg (by omega)]

theorem Memory.read_writeBytes_of_outside {m : Memory} (h : m.wf) {a b : Nat} {bs : List Byte}
    (hb : b < a ∨ a + bs.length ≤ b) : Memory.read (Memory.writeBytes m a bs) b = Memory.read m b := by
  rw [Memory.read_writeBytes h, if_neg (by omega)]

@[simp] theorem Memory.length_readBytes (m : Memory) (a n : Nat) : (Memory.readBytes m a n).length = n := by
  induction n generalizing a with
  | zero => rfl
  | succ n ih => simp [Memory.readBytes, ih]

theorem Memory.getElem_readBytes (m : Memory) (a n i : Nat) (h : i < (Memory.readBytes m a n).length) :
    (Memory.readBytes m a n)[i] = Memory.read m (a + i) := by
  induction n generalizing a i with
  | zero => simp at h
  | succ n ih =>
    cases i with
    | zero => rfl
    | succ i =>
      simp only [Memory.readBytes, List.getElem_cons_succ]
      rw [ih]
      congr 1
      omega

theorem Memory.readBytes_add (m : Memory) (a n k : Nat) :
    Memory.readBytes m a (n + k) = Memory.readBytes m a n ++ Memory.readBytes m (a + n) k := by
  induction n generalizing a with
  | zero => simp [Memory.readBytes]
  | succ n ih =>
    rw [Nat.add_right_comm, Memory.readBytes, ih, Memory.readBytes, List.cons_append]
    congr 3
    omega

/-- Two memories that agree on a range give the same bytes. -/
theorem Memory.readBytes_congr {m m' : Memory} {a a' n : Nat}
    (h : ∀ j < n, Memory.read m (a + j) = Memory.read m' (a' + j)) :
    Memory.readBytes m a n = Memory.readBytes m' a' n := by
  refine List.ext_getElem (by simp) fun i h1 h2 => ?_
  rw [Memory.getElem_readBytes, Memory.getElem_readBytes]
  exact h i (by simpa using h1)

@[simp] theorem Memory.getElem_readBlock (m : Memory) (a j : Nat) (h : j < Config.B) :
    (Memory.readBlock m a)[j] = Memory.read m (a + j) := by
  simp [Memory.readBlock]

theorem Memory.readBlock_congr {m m' : Memory} {a a' : Nat}
    (h : ∀ j < Config.B, Memory.read m (a + j) = Memory.read m' (a' + j)) :
    Memory.readBlock m a = Memory.readBlock m' a' := by
  refine Vector.ext fun i hi => ?_
  rw [Memory.getElem_readBlock _ _ _ hi, Memory.getElem_readBlock _ _ _ hi]
  exact h i hi

theorem Memory.toList_readBlock (m : Memory) (a : Nat) :
    (Memory.readBlock m a).toList = Memory.readBytes m a Config.B := by
  refine List.ext_getElem (by simp) fun i h1 h2 => ?_
  rw [Memory.getElem_readBytes, Vector.getElem_toList]
  exact Memory.getElem_readBlock _ _ _ (by simpa using h1)

@[simp] theorem getElem_xorBlock (x y : Block) (j : Nat) (h : j < Config.B) : (xorBlock x y)[j] = x[j] ^^^ y[j] := by
  simp [xorBlock]

theorem getElem_toList_xorBlock (x y : Block) (j : Nat) (h : j < Config.B) (h' : j < (xorBlock x y).toList.length) :
    (xorBlock x y).toList[j] = x[j]'h ^^^ y[j]'h := by
  simp [xorBlock]

@[simp] theorem length_toList_block (x : Block) : x.toList.length = Config.B := by simp

theorem Memory.wf_writeBlock {m : Memory} (h : m.wf) (a : Nat) (x : Block) : (Memory.writeBlock m a x).wf :=
  Memory.wf_writeBytes h a _

theorem Memory.inSpace_writeBlock {m : Memory} (h : m.inSpace) {a : Nat} (x : Block)
    (ha : a + Config.B ≤ 2 ^ Config.AW) : (Memory.writeBlock m a x).inSpace :=
  Memory.inSpace_writeBytes h _ (by simpa using ha)

/-- A read after a block write: byte `b - a` of the block inside it, every other address as before. -/
theorem Memory.read_writeBlock {m : Memory} (h : m.wf) (a b : Nat) (x : Block) :
    Memory.read (Memory.writeBlock m a x) b =
      if a ≤ b ∧ b < a + Config.B then x.toList.getD (b - a) 0#8 else Memory.read m b := by
  rw [Memory.writeBlock, Memory.read_writeBytes h, length_toList_block]

theorem Memory.read_writeBlock_of_outside {m : Memory} (h : m.wf) {a b : Nat} (x : Block)
    (hb : b < a ∨ a + Config.B ≤ b) : Memory.read (Memory.writeBlock m a x) b = Memory.read m b := by
  rw [Memory.read_writeBlock h, if_neg (by omega)]

/-- A block reads back as it was written. -/
theorem Memory.readBlock_writeBlock {m : Memory} (h : m.wf) (a : Nat) (x : Block) :
    Memory.readBlock (Memory.writeBlock m a x) a = x := by
  refine Vector.ext fun i hi => ?_
  rw [Memory.getElem_readBlock _ _ _ hi, Memory.read_writeBlock h, if_pos (by omega)]
  have hl : i < x.toList.length := by simpa using hi
  rw [Nat.add_sub_cancel_left, List.getD_eq_getElem _ _ hl, Vector.getElem_toList]

theorem xorBlock_xorBlock_cancel (x y : Block) : xorBlock (xorBlock x y) x = y := by
  refine Vector.ext fun i hi => ?_
  simp only [getElem_xorBlock _ _ _ hi]
  rw [BitVec.xor_comm x[i] y[i], BitVec.xor_assoc, BitVec.xor_self, BitVec.xor_zero]

theorem xorBlock_right_injective {x y z : Block} (h : xorBlock x y = xorBlock x z) : y = z := by
  rw [← xorBlock_xorBlock_cancel x y, h, xorBlock_xorBlock_cancel]

theorem xorBlock_comm (x y : Block) : xorBlock x y = xorBlock y x := by
  refine Vector.ext fun i hi => ?_
  simp only [getElem_xorBlock _ _ _ hi, BitVec.xor_comm]

end Sys2Proof.Machine
end

