-- ==== Sys2Proof/Laws/State.lean ====
section
/-! SUPPORT. What each update of the state does to each field. -/

namespace Sys2Proof.Machine

@[simp] theorem State.complete_chain (c : Code) (b : BitVec 2) (s : State) : (s.complete c b).chain = s.chain := rfl
@[simp] theorem State.complete_work (c : Code) (b : BitVec 2) (s : State) : (s.complete c b).work = s.work := rfl
@[simp] theorem State.complete_ext (c : Code) (b : BitVec 2) (s : State) : (s.complete c b).ext = s.ext := rfl
@[simp] theorem State.complete_cfg (c : Code) (b : BitVec 2) (s : State) : (s.complete c b).cfg = s.cfg := rfl
@[simp] theorem State.complete_status (c : Code) (b : BitVec 2) (s : State) :
    (s.complete c b).status = statusAfter s.status c b := rfl
@[simp] theorem State.complete_result (c : Code) (b : BitVec 2) (s : State) : (s.complete c b).result = s.result := rfl
@[simp] theorem State.complete_arg0 (c : Code) (b : BitVec 2) (s : State) : (s.complete c b).arg0 = s.arg0 := rfl
@[simp] theorem State.complete_arg1 (c : Code) (b : BitVec 2) (s : State) : (s.complete c b).arg1 = s.arg1 := rfl
@[simp] theorem State.complete_arg2 (c : Code) (b : BitVec 2) (s : State) : (s.complete c b).arg2 = s.arg2 := rfl
@[simp] theorem State.complete_arg3 (c : Code) (b : BitVec 2) (s : State) : (s.complete c b).arg3 = s.arg3 := rfl
@[simp] theorem State.complete_seq (c : Code) (b : BitVec 2) (s : State) : (s.complete c b).seq = s.seq := rfl
@[simp] theorem State.complete_mem (c : Code) (b : BitVec 2) (s : State) : (s.complete c b).mem = s.mem := rfl
@[simp] theorem State.complete_regions (c : Code) (b : BitVec 2) (s : State) : (s.complete c b).regions = s.regions := rfl
@[simp] theorem State.complete_host (c : Code) (b : BitVec 2) (s : State) : (s.complete c b).host = s.host := rfl
@[simp] theorem State.complete_returned (c : Code) (b : BitVec 2) (s : State) : (s.complete c b).returned = s.returned := rfl

/-- The end of a command other than a successful CONSTRUCT, as the shared completion. -/
theorem State.finish_eq (c : Code) (s : State) : s.finish c = s.complete c (statusState s.status) := rfl

@[simp] theorem State.finish_chain (c : Code) (s : State) : (s.finish c).chain = s.chain := rfl
@[simp] theorem State.finish_work (c : Code) (s : State) : (s.finish c).work = s.work := rfl
@[simp] theorem State.finish_ext (c : Code) (s : State) : (s.finish c).ext = s.ext := rfl
@[simp] theorem State.finish_cfg (c : Code) (s : State) : (s.finish c).cfg = s.cfg := rfl
@[simp] theorem State.finish_status (c : Code) (s : State) :
    (s.finish c).status = statusAfter s.status c (statusState s.status) := rfl
@[simp] theorem State.finish_result (c : Code) (s : State) : (s.finish c).result = s.result := rfl
@[simp] theorem State.finish_arg0 (c : Code) (s : State) : (s.finish c).arg0 = s.arg0 := rfl
@[simp] theorem State.finish_arg1 (c : Code) (s : State) : (s.finish c).arg1 = s.arg1 := rfl
@[simp] theorem State.finish_arg2 (c : Code) (s : State) : (s.finish c).arg2 = s.arg2 := rfl
@[simp] theorem State.finish_arg3 (c : Code) (s : State) : (s.finish c).arg3 = s.arg3 := rfl
@[simp] theorem State.finish_seq (c : Code) (s : State) : (s.finish c).seq = s.seq := rfl
@[simp] theorem State.finish_mem (c : Code) (s : State) : (s.finish c).mem = s.mem := rfl
@[simp] theorem State.finish_regions (c : Code) (s : State) : (s.finish c).regions = s.regions := rfl
@[simp] theorem State.finish_host (c : Code) (s : State) : (s.finish c).host = s.host := rfl
@[simp] theorem State.finish_returned (c : Code) (s : State) : (s.finish c).returned = s.returned := rfl

/-- A successful CONSTRUCT, as one record update. -/
theorem State.construct_eq (m : Mode) (d : Direction) (s : State) :
    s.construct m d = { s with cfg := cfgWord m d, status := statusAfter s.status .ok stateReady } := rfl

@[simp] theorem State.construct_chain (m : Mode) (d : Direction) (s : State) : (s.construct m d).chain = s.chain := rfl
@[simp] theorem State.construct_work (m : Mode) (d : Direction) (s : State) : (s.construct m d).work = s.work := rfl
@[simp] theorem State.construct_ext (m : Mode) (d : Direction) (s : State) : (s.construct m d).ext = s.ext := rfl
@[simp] theorem State.construct_cfg (m : Mode) (d : Direction) (s : State) : (s.construct m d).cfg = cfgWord m d := rfl
@[simp] theorem State.construct_status (m : Mode) (d : Direction) (s : State) :
    (s.construct m d).status = statusAfter s.status .ok stateReady := rfl
@[simp] theorem State.construct_result (m : Mode) (d : Direction) (s : State) : (s.construct m d).result = s.result := rfl
@[simp] theorem State.construct_seq (m : Mode) (d : Direction) (s : State) : (s.construct m d).seq = s.seq := rfl
@[simp] theorem State.construct_mem (m : Mode) (d : Direction) (s : State) : (s.construct m d).mem = s.mem := rfl
@[simp] theorem State.construct_regions (m : Mode) (d : Direction) (s : State) :
    (s.construct m d).regions = s.regions := rfl
@[simp] theorem State.construct_host (m : Mode) (d : Direction) (s : State) : (s.construct m d).host = s.host := rfl
@[simp] theorem State.construct_returned (m : Mode) (d : Direction) (s : State) :
    (s.construct m d).returned = s.returned := rfl

@[simp] theorem State.goto_seq (q : Seq) (p : Phase) (s : State) : (s.goto q p).seq = some { q with phase := p } := rfl
@[simp] theorem State.goto_chain (q : Seq) (p : Phase) (s : State) : (s.goto q p).chain = s.chain := rfl
@[simp] theorem State.goto_work (q : Seq) (p : Phase) (s : State) : (s.goto q p).work = s.work := rfl
@[simp] theorem State.goto_ext (q : Seq) (p : Phase) (s : State) : (s.goto q p).ext = s.ext := rfl
@[simp] theorem State.goto_cfg (q : Seq) (p : Phase) (s : State) : (s.goto q p).cfg = s.cfg := rfl
@[simp] theorem State.goto_status (q : Seq) (p : Phase) (s : State) : (s.goto q p).status = s.status := rfl
@[simp] theorem State.goto_result (q : Seq) (p : Phase) (s : State) : (s.goto q p).result = s.result := rfl
@[simp] theorem State.goto_mem (q : Seq) (p : Phase) (s : State) : (s.goto q p).mem = s.mem := rfl
@[simp] theorem State.goto_host (q : Seq) (p : Phase) (s : State) : (s.goto q p).host = s.host := rfl

@[simp] theorem State.resetEngine_chain (s : State) : s.resetEngine.chain = none := rfl
@[simp] theorem State.resetEngine_work (s : State) : s.resetEngine.work = none := rfl
@[simp] theorem State.resetEngine_ext (s : State) : s.resetEngine.ext = none := rfl
@[simp] theorem State.resetEngine_cfg (s : State) : s.resetEngine.cfg = 0#32 := rfl
@[simp] theorem State.resetEngine_status (s : State) : s.resetEngine.status = 0#32 := rfl
@[simp] theorem State.resetEngine_result (s : State) : s.resetEngine.result = 0#32 := rfl
@[simp] theorem State.resetEngine_seq (s : State) : s.resetEngine.seq = none := rfl
@[simp] theorem State.resetEngine_mem (s : State) : s.resetEngine.mem = s.mem := rfl
@[simp] theorem State.resetEngine_regions (s : State) : s.resetEngine.regions = s.regions := rfl
@[simp] theorem State.resetEngine_host (s : State) : s.resetEngine.host = s.host := rfl
@[simp] theorem State.resetEngine_returned (s : State) : s.resetEngine.returned = s.returned := rfl

theorem State.chainValue_of_some {c : Collaborators} {s : State} {x : Block} (h : s.chain = some x) : s.chainValue c = x := by
  rw [State.chainValue, h, Option.getD_some]

theorem State.workValue_of_some {c : Collaborators} {s : State} {x : Block} (h : s.work = some x) : s.workValue c = x := by
  rw [State.workValue, h, Option.getD_some]

theorem State.extValue_of_some {c : Collaborators} {s : State} {e : ExtState} (h : s.ext = some e) : s.extValue c = e := by
  rw [State.extValue, h, Option.getD_some]

@[simp] theorem andThen_next (s : State) (f : State → Result) : andThen (.next s) f = f s := rfl
@[simp] theorem andThen_fault (r : Fault) (f : State → Result) : andThen (.fault r) f = .fault r := rfl
@[simp] theorem andThen_refused (r : Refusal) (f : State → Result) : andThen (.refused r) f = .refused r := rfl

/-- A sequence answers a next state exactly when its first part does and the rest does from there. -/
theorem andThen_eq_next {o : Result} {f : State → Result} {t : State} :
    andThen o f = .next t ↔ ∃ s, o = .next s ∧ f s = .next t := by
  cases o <;> simp [andThen]

theorem andThen_assoc (o : Result) (f g : State → Result) :
    andThen (andThen o f) g = andThen o fun s => andThen (f s) g := by
  cases o <;> rfl

/-- An access guard that lets through. -/
theorem withRange_of_ok {s : State} {k : Access} {a n : Nat} (h : RangeOk s k a n) (go : Result) :
    withRange s k a n go = go := by
  obtain ⟨h1, h2, h3⟩ := h
  simp [withRange, Nat.not_lt.2 h1, h2, h3]

/-- All an access guard can do. -/
theorem withRange_eq_next {s t : State} {k : Access} {a n : Nat} {go : Result} :
    withRange s k a n go = .next t ↔ RangeOk s k a n ∧ go = .next t := by
  simp only [withRange, RangeOk]
  split
  · simp_all
  · split
    · simp_all
    · split <;> simp_all

theorem disjoint_or_eq_of_not_inexact {d a n : Nat} (h : inexactOverlap d a n = false) :
    disjoint d a n = true ∨ d = a := by
  simp only [inexactOverlap, Bool.and_eq_false_iff, Bool.not_eq_false', decide_eq_false_iff_not, not_not] at h
  exact h

theorem inexact_eq_false {d a n : Nat} (h : disjoint d a n = true ∨ d = a) : inexactOverlap d a n = false := by
  simp only [inexactOverlap, Bool.and_eq_false_iff, Bool.not_eq_false', decide_eq_false_iff_not, not_not]
  exact h

/-- All CRYPT's range guard can do: it lets through exactly the ranges that have a meaning. -/
theorem withCryptRanges_eq_next {s t : State} {go : Result} :
    withCryptRanges s go = .next t ↔ CryptRangesOk s ∧ go = .next t := by
  unfold withCryptRanges
  split
  · rename_i h; simp [CryptRangesOk, h]
  · rename_i h0
    split
    · rename_i h; simp only [CryptRangesOk, RangeOk, h0, false_or]; simp; omega
    · split
      · rename_i h; simp only [CryptRangesOk, RangeOk, h0, false_or]; simp; omega
      · split
        · rename_i h
          simp only [reduceCtorEq, false_iff, not_and]
          intro hr
          obtain hr | ⟨_, _, hr⟩ := hr
          · exact absurd hr h0
          · rw [inexact_eq_false hr] at h; cases h
        · rename_i h
          have hd := disjoint_or_eq_of_not_inexact (by simpa using h)
          simp only [withRange_eq_next, CryptRangesOk, h0, false_or]
          tauto

theorem withCryptRanges_of_ok {s : State} (h : CryptRangesOk s) (go : Result) : withCryptRanges s go = go := by
  obtain h | ⟨h1, h2, h3⟩ := h
  · simp [withCryptRanges, h]
  · unfold withCryptRanges
    split
    · rfl
    · rw [if_neg (Nat.not_lt.2 h1.1), if_neg (Nat.not_lt.2 h2.1), inexact_eq_false h3, withRange_of_ok h1, withRange_of_ok h2]
      rfl

end Sys2Proof.Machine
end

