-- ==== Sys2Proof/Laws/Blocks.lean ====
section
/-! SUPPORT. The block operations and the loop of CRYPT as one pure function over the hidden registers: what a block operation answers,
and what the blocks of a CRYPT answer when the ranges are disjoint or exactly aliased. -/

namespace Sys2Proof.Machine

/-- The three hidden registers. -/
structure Hid where
  chain : Option Block
  work : Option Block
  ext : Option ExtState

/-- The hidden registers of a state. -/
def State.hid (s : State) : Hid := { chain := s.chain, work := s.work, ext := s.ext }

/-- A state with its hidden registers and its memory replaced. -/
def State.withHid (s : State) (h : Hid) (m : Memory) : State :=
  { s with chain := h.chain, work := h.work, ext := h.ext, mem := m }

@[simp] theorem State.withHid_chain (s : State) (h : Hid) (m : Memory) : (s.withHid h m).chain = h.chain := rfl
@[simp] theorem State.withHid_work (s : State) (h : Hid) (m : Memory) : (s.withHid h m).work = h.work := rfl
@[simp] theorem State.withHid_ext (s : State) (h : Hid) (m : Memory) : (s.withHid h m).ext = h.ext := rfl
@[simp] theorem State.withHid_mem (s : State) (h : Hid) (m : Memory) : (s.withHid h m).mem = m := rfl
@[simp] theorem State.withHid_cfg (s : State) (h : Hid) (m : Memory) : (s.withHid h m).cfg = s.cfg := rfl
@[simp] theorem State.withHid_status (s : State) (h : Hid) (m : Memory) : (s.withHid h m).status = s.status := rfl
@[simp] theorem State.withHid_result (s : State) (h : Hid) (m : Memory) : (s.withHid h m).result = s.result := rfl
@[simp] theorem State.withHid_arg0 (s : State) (h : Hid) (m : Memory) : (s.withHid h m).arg0 = s.arg0 := rfl
@[simp] theorem State.withHid_arg1 (s : State) (h : Hid) (m : Memory) : (s.withHid h m).arg1 = s.arg1 := rfl
@[simp] theorem State.withHid_arg2 (s : State) (h : Hid) (m : Memory) : (s.withHid h m).arg2 = s.arg2 := rfl
@[simp] theorem State.withHid_arg3 (s : State) (h : Hid) (m : Memory) : (s.withHid h m).arg3 = s.arg3 := rfl
@[simp] theorem State.withHid_seq (s : State) (h : Hid) (m : Memory) : (s.withHid h m).seq = s.seq := rfl
@[simp] theorem State.withHid_regions (s : State) (h : Hid) (m : Memory) : (s.withHid h m).regions = s.regions := rfl
@[simp] theorem State.withHid_host (s : State) (h : Hid) (m : Memory) : (s.withHid h m).host = s.host := rfl
@[simp] theorem State.withHid_returned (s : State) (h : Hid) (m : Memory) :
    (s.withHid h m).returned = s.returned := rfl
@[simp] theorem State.withHid_hid (s : State) (h : Hid) (m : Memory) : (s.withHid h m).hid = h := rfl
@[simp] theorem State.withHid_withHid (s : State) (h h' : Hid) (m m' : Memory) :
    (s.withHid h m).withHid h' m' = s.withHid h' m' := rfl
@[simp] theorem State.withHid_self (s : State) : s.withHid s.hid s.mem = s := rfl
@[simp] theorem dstAddr_withHid (s : State) (h : Hid) (m : Memory) : dstAddr (s.withHid h m) = dstAddr s := rfl
@[simp] theorem srcAddr_withHid (s : State) (h : Hid) (m : Memory) : srcAddr (s.withHid h m) = srcAddr s := rfl
@[simp] theorem dstLen_withHid (s : State) (h : Hid) (m : Memory) : dstLen (s.withHid h m) = dstLen s := rfl
@[simp] theorem srcLen_withHid (s : State) (h : Hid) (m : Memory) : srcLen (s.withHid h m) = srcLen s := rfl
@[simp] theorem blockCount_withHid (s : State) (h : Hid) (m : Memory) : blockCount (s.withHid h m) = blockCount s := rfl
@[simp] theorem dstBlockAddr_withHid (s : State) (h : Hid) (m : Memory) (i : Nat) :
    dstBlockAddr (s.withHid h m) i = dstAddr s + i * Config.B := rfl
@[simp] theorem srcBlockAddr_withHid (s : State) (h : Hid) (m : Memory) (i : Nat) :
    srcBlockAddr (s.withHid h m) i = srcAddr s + i * Config.B := rfl
@[simp] theorem State.hid_chain (s : State) : s.hid.chain = s.chain := rfl
@[simp] theorem State.hid_work (s : State) : s.hid.work = s.work := rfl
@[simp] theorem State.hid_ext (s : State) : s.hid.ext = s.ext := rfl

/-- One block as a function of the hidden registers and the source block: the new hidden registers and the destination block
(42_mode_selector.md R87). -/
def blockFn (c : Collaborators) (m : Mode) (d : Direction) (h : Hid) (x : Block) : Hid × Block :=
  match m, d with
  | .cbc, .encrypt =>
    ({ h with
        chain := some (c.enc (xorBlock (h.chain.getD c.unwrittenChain) x))
        work := some (xorBlock (h.chain.getD c.unwrittenChain) x) },
      c.enc (xorBlock (h.chain.getD c.unwrittenChain) x))
  | .cbc, .decrypt =>
    ({ h with chain := some x, work := some (c.dec x) }, xorBlock (c.dec x) (h.chain.getD c.unwrittenChain))
  | .ecb, .encrypt => (h, c.enc x)
  | .ecb, .decrypt => (h, c.dec x)
  | .ext k, _ =>
    ({ h with ext := some (c.extXform k (h.ext.getD c.unwrittenExt) x.toList).1 },
      blockOfBytes (c.extXform k (h.ext.getD c.unwrittenExt) x.toList).2)

/-- A list of blocks, one after another. -/
def streamFn (c : Collaborators) (m : Mode) (d : Direction) : Hid → List Block → Hid × List Block
  | h, [] => (h, [])
  | h, x :: xs =>
    let r := blockFn c m d h x
    let q := streamFn c m d r.1 xs
    (q.1, r.2 :: q.2)

theorem streamFn_append (c : Collaborators) (m : Mode) (d : Direction) (h : Hid) (xs ys : List Block) :
    streamFn c m d h (xs ++ ys) =
      ((streamFn c m d (streamFn c m d h xs).1 ys).1,
        (streamFn c m d h xs).2 ++ (streamFn c m d (streamFn c m d h xs).1 ys).2) := by
  induction xs generalizing h with
  | nil => rfl
  | cons x xs ih => simp only [List.cons_append, streamFn, ih]

@[simp] theorem length_streamFn (c : Collaborators) (m : Mode) (d : Direction) (h : Hid) (xs : List Block) :
    (streamFn c m d h xs).2.length = xs.length := by
  induction xs generalizing h with
  | nil => rfl
  | cons x xs ih => simp [streamFn, ih]

/-! ### One block -/

/-- CBC.ENC as one update (R73). -/
theorem cbcEnc_eq (c : Collaborators) (d a : Nat) (s : State) :
    cbcEnc c d a s =
      .next
        { s with
          work := some (xorBlock (s.chainValue c) (s.mem.readBlock a))
          chain := some (c.enc (xorBlock (s.chainValue c) (s.mem.readBlock a)))
          mem := s.mem.writeBlock d (c.enc (xorBlock (s.chainValue c) (s.mem.readBlock a))) } := rfl

/-- CHAIN after the first `n` bytes of a CBC.DEC of the source block `x`. -/
def chainUpTo (x ch : Block) (n : Nat) : Block := Vector.ofFn fun j : Fin Config.B => if j.val < n then x[j] else ch[j]

theorem chainUpTo_zero (x ch : Block) : chainUpTo x ch 0 = ch := by
  refine Vector.ext fun i hi => ?_
  simp [chainUpTo]

theorem chainUpTo_block (x ch : Block) : chainUpTo x ch Config.B = x := by
  refine Vector.ext fun i hi => ?_
  simp [chainUpTo]

theorem chainUpTo_set (x ch : Block) (n : Nat) (h : n < Config.B) :
    (chainUpTo x ch n).set n x[n] = chainUpTo x ch (n + 1) := by
  refine Vector.ext fun i hi => ?_
  rw [Vector.getElem_set]
  simp only [chainUpTo, Vector.getElem_ofFn]
  split
  · rename_i h'; subst h'; simp
  · rename_i h'
    by_cases h2 : i < n
    · simp [h2, Nat.lt_succ_of_lt h2]
    · rw [if_neg h2, if_neg (by omega)]

/-- Steps 2 and 3 of CBC.DEC for one byte, as one update (R76). -/
theorem cbcDecByte_eq {c : Collaborators} {d a j : Nat} {s : State} (hj : j < Config.B) :
    cbcDecByte c d a j s =
      .next
        { s with
          mem := s.mem.write (d + j) ((s.workValue c)[j] ^^^ (s.chainValue c)[j])
          chain := some ((s.chainValue c).set j (s.mem.read (a + j))) } := dif_pos hj

/-- The first `n` bytes of steps 2 and 3 of CBC.DEC, when source and destination are disjoint or the same (R74, R76). -/
theorem cbcDecBytes_eq {c : Collaborators} {d a n : Nat} {s : State} (hm : s.mem.wf)
    (hda : disjoint d a Config.B = true ∨ d = a) (hn : n + 1 ≤ Config.B) :
    cbcDecBytes c d a (n + 1) s =
      .next
        { s with
          chain := some (chainUpTo (s.mem.readBlock a) (s.chainValue c) (n + 1))
          mem := s.mem.writeBytes d ((xorBlock (s.workValue c) (s.chainValue c)).toList.take (n + 1)) } := by
  induction n with
  | zero =>
    rw [cbcDecBytes, cbcDecBytes, andThen_next, cbcDecByte_eq hn, Memory.writeBytes_take_succ _ _ _ _ (by simp),
      getElem_toList_xorBlock _ _ _ hn, ← chainUpTo_set _ _ _ hn, chainUpTo_zero, Memory.getElem_readBlock _ _ _ hn]
    rfl
  | succ n ih =>
    have hn' : n + 1 < Config.B := hn
    have hread :
        Memory.read (s.mem.writeBytes d ((xorBlock (s.workValue c) (s.chainValue c)).toList.take (n + 1))) (a + (n + 1)) =
          (s.mem.readBlock a)[n + 1]'hn' := by
      rw [Memory.getElem_readBlock _ _ _ hn']
      refine Memory.read_writeBytes_of_outside hm ?_
      have : ((xorBlock (s.workValue c) (s.chainValue c)).toList.take (n + 1)).length ≤ n + 1 := by simp
      obtain h | h := hda
      · simp only [disjoint, decide_eq_true_eq] at h
        have : Config.B ≠ 0 := by decide
        omega
      · omega
    have hch : (chainUpTo (s.mem.readBlock a) (s.chainValue c) (n + 1))[n + 1]'hn' = (s.chainValue c)[n + 1]'hn' := by
      simp [chainUpTo]
    rw [cbcDecBytes, ih (by omega), andThen_next, cbcDecByte_eq hn']
    dsimp only
    rw [State.chainValue_of_some (x := chainUpTo (s.mem.readBlock a) (s.chainValue c) (n + 1)) rfl, hread, hch,
      chainUpTo_set _ _ _ hn', Memory.writeBytes_take_succ _ _ (n + 1) _ (by rw [length_toList_block]; exact hn'), getElem_toList_xorBlock _ _ _ hn']
    rfl

/-- CBC.DEC as one update, when source and destination are disjoint or the same (R74). -/
theorem cbcDec_eq {c : Collaborators} {d a : Nat} {s : State} (hm : s.mem.wf)
    (hda : disjoint d a Config.B = true ∨ d = a) :
    cbcDec c d a s =
      .next
        { s with
          work := some (c.dec (s.mem.readBlock a))
          chain := some (s.mem.readBlock a)
          mem := s.mem.writeBlock d (xorBlock (c.dec (s.mem.readBlock a)) (s.chainValue c)) } := by
  rw [cbcDec, cbcDecCipher, andThen_next]
  refine (cbcDecBytes_eq (n := 15) (s := { s with work := some (c.dec (s.mem.readBlock a)) }) hm hda (Nat.le_refl _)).trans ?_
  rw [chainUpTo_block, List.take_of_length_le (by simp)]
  rfl

/-- EXT.BLOCK as one update (42_mode_selector.md R94). -/
theorem extBlock_eq (c : Collaborators) (k : ExtMode) (d a : Nat) (s : State) :
    extBlock c k d a s =
      .next
        { s with
          ext := some (c.extXform k (s.extValue c) (s.mem.readBytes a Config.B)).1
          mem := s.mem.writeBlock d (blockOfBytes (c.extXform k (s.extValue c) (s.mem.readBytes a Config.B)).2) } := rfl

theorem blockOfBytes_toList (x : Block) : blockOfBytes x.toList = x := by
  refine Vector.ext fun i hi => ?_
  have hl : i < x.toList.length := by simpa using hi
  simp only [blockOfBytes, Vector.getElem_ofFn]
  rw [List.getD_eq_getElem _ _ hl, Vector.getElem_toList]

theorem toList_blockOfBytes {bs : List Byte} (h : bs.length = Config.B) : (blockOfBytes bs).toList = bs := by
  refine List.ext_getElem (by simp [h]) fun i h1 h2 => ?_
  rw [Vector.getElem_toList]
  simp only [blockOfBytes, Vector.getElem_ofFn]
  exact List.getD_eq_getElem _ _ h2

/-- All a block operation can do, for a mode a rule produces: it follows `blockFn`. -/
theorem blockOp_eq {c : Collaborators} {m : Mode} {d a : Nat} {s : State} (hmode : cfgMode s.cfg = some m)
    (hm : s.mem.wf) (hda : disjoint d a Config.B = true ∨ d = a) :
    blockOp c d a s =
      .next
        (s.withHid (blockFn c m (cfgDir s.cfg) s.hid (s.mem.readBlock a)).1
          (s.mem.writeBlock d (blockFn c m (cfgDir s.cfg) s.hid (s.mem.readBlock a)).2)) := by
  unfold blockOp
  rw [hmode]
  cases m with
  | ecb => cases hd : cfgDir s.cfg <;> rfl
  | cbc =>
    cases hd : cfgDir s.cfg
    · exact cbcEnc_eq c d a s
    · exact cbcDec_eq hm hda
  | ext k =>
    cases hd : cfgDir s.cfg <;>
      simp only [extBlock_eq, blockFn, State.withHid, State.hid, Memory.toList_readBlock, State.extValue]

/-! ### The blocks of a CRYPT -/

theorem blocksAt_succ (m : Memory) (a n : Nat) :
    blocksAt m a (n + 1) = blocksAt m a n ++ [m.readBlock (a + n * Config.B)] := by
  induction n generalizing a with
  | zero => simp [blocksAt]
  | succ n ih =>
    rw [blocksAt, ih, blocksAt, List.cons_append]
    congr 4
    rw [Nat.succ_mul]
    omega

@[simp] theorem length_blocksAt (m : Memory) (a n : Nat) : (blocksAt m a n).length = n := by
  induction n generalizing a with
  | zero => rfl
  | succ n ih => simp [blocksAt, ih]

theorem getElem_blocksAt (m : Memory) (a n i : Nat) (h : i < (blocksAt m a n).length) :
    (blocksAt m a n)[i] = m.readBlock (a + i * Config.B) := by
  induction n generalizing a i with
  | zero => simp at h
  | succ n ih =>
    cases i with
    | zero => simp [blocksAt]
    | succ i =>
      simp only [blocksAt, List.getElem_cons_succ]
      rw [ih, Nat.succ_mul]
      congr 1
      omega

theorem blocksAt_congr {m m' : Memory} {a a' n : Nat}
    (h : ∀ j < n * Config.B, Memory.read m (a + j) = Memory.read m' (a' + j)) : blocksAt m a n = blocksAt m' a' n := by
  induction n generalizing a a' with
  | zero => rfl
  | succ n ih =>
    rw [Nat.succ_mul] at h
    rw [blocksAt, blocksAt, Memory.readBlock_congr fun j hj => h j (by omega),
      ih (a := a + Config.B) (a' := a' + Config.B) fun j hj => by
        rw [Nat.add_assoc, Nat.add_assoc]; exact h (Config.B + j) (by omega)]

theorem blocksAt_add (m : Memory) (a n k : Nat) :
    blocksAt m a (n + k) = blocksAt m a n ++ blocksAt m (a + n * Config.B) k := by
  induction n generalizing a with
  | zero => simp [blocksAt]
  | succ n ih =>
    rw [Nat.add_right_comm, blocksAt, ih, blocksAt, List.cons_append, Nat.succ_mul]
    congr 3
    omega

@[simp] theorem bytesOfBlocks_nil : bytesOfBlocks [] = [] := rfl

theorem bytesOfBlocks_append (xs ys : List Block) : bytesOfBlocks (xs ++ ys) = bytesOfBlocks xs ++ bytesOfBlocks ys := by
  induction xs with
  | nil => rfl
  | cons x xs ih => simp [bytesOfBlocks, ih]

theorem length_bytesOfBlocks (xs : List Block) : (bytesOfBlocks xs).length = xs.length * Config.B := by
  induction xs with
  | nil => rfl
  | cons x xs ih =>
    rw [bytesOfBlocks, List.length_append, ih, length_toList_block, List.length_cons, Nat.succ_mul, Nat.add_comm]

theorem bytesOfBlocks_blocksAt (m : Memory) (a n : Nat) :
    bytesOfBlocks (blocksAt m a n) = m.readBytes a (n * Config.B) := by
  induction n generalizing a with
  | zero => rfl
  | succ n ih =>
    rw [blocksAt, bytesOfBlocks, Memory.toList_readBlock, ih, Nat.succ_mul, Nat.add_comm (n * Config.B),
      Memory.readBytes_add]

theorem Memory.writeBytes_bytesOfBlocks_concat (m : Memory) (a : Nat) (ys : List Block) (y : Block) :
    m.writeBytes a (bytesOfBlocks (ys ++ [y])) =
      (m.writeBytes a (bytesOfBlocks ys)).writeBlock (a + ys.length * Config.B) y := by
  rw [bytesOfBlocks_append, Memory.writeBytes_append, length_bytesOfBlocks]
  simp [bytesOfBlocks, Memory.writeBlock]

/-- Blocks read back as they were written. -/
theorem blocksAt_writeBytes {m : Memory} (h : m.wf) (a : Nat) (ys : List Block) :
    blocksAt (m.writeBytes a (bytesOfBlocks ys)) a ys.length = ys := by
  induction ys using List.reverseRecOn with
  | nil => rfl
  | append_singleton ys y ih =>
    rw [List.length_append, List.length_singleton, blocksAt_succ, Memory.writeBytes_bytesOfBlocks_concat,
      Memory.readBlock_writeBlock (Memory.wf_writeBytes h _ _)]
    congr 1
    rw [blocksAt_congr (m' := m.writeBytes a (bytesOfBlocks ys)) (a' := a), ih]
    intro j hj
    exact Memory.read_writeBlock_of_outside (Memory.wf_writeBytes h _ _) _ (by omega)

/-- The ranges of the first blocks of a CRYPT lie to each other as R41 allows. -/
theorem block_ranges {d a n k : Nat} (h : disjoint d a n = true ∨ d = a) (hk : (k + 1) * Config.B ≤ n) :
    disjoint (d + k * Config.B) (a + k * Config.B) Config.B = true ∨ d + k * Config.B = a + k * Config.B := by
  rw [Nat.succ_mul] at hk
  obtain h | h := h
  · left
    simp only [disjoint, decide_eq_true_eq] at h ⊢
    have : Config.B ≠ 0 := by decide
    omega
  · right; omega

/-- Source block `k` is still as it was when the blocks before it have been written. -/
theorem readBlock_src_unchanged {m : Memory} (hm : m.wf) {d a n k : Nat} (h : disjoint d a n = true ∨ d = a)
    (hk : (k + 1) * Config.B ≤ n) {ys : List Block} (hy : ys.length = k) :
    (m.writeBytes d (bytesOfBlocks ys)).readBlock (a + k * Config.B) = m.readBlock (a + k * Config.B) := by
  refine Memory.readBlock_congr fun j hj => Memory.read_writeBytes_of_outside hm ?_
  rw [length_bytesOfBlocks, hy]
  rw [Nat.succ_mul] at hk
  obtain h | h := h
  · simp only [disjoint, decide_eq_true_eq] at h
    have : Config.B ≠ 0 := by decide
    omega
  · omega

/-- The first `n` blocks of a CRYPT follow `streamFn`: the output blocks go to the destination, the hidden registers advance, nothing
else changes (40_commands.md R70, with the ranges of 20_memory.md R41). -/
theorem cryptBlocks_eq {c : Collaborators} {m : Mode} {s : State} (hmode : cfgMode s.cfg = some m) (hm : s.mem.wf)
    {n len : Nat} (hr : disjoint (dstAddr s) (srcAddr s) len = true ∨ dstAddr s = srcAddr s)
    (hn : n * Config.B ≤ len) :
    cryptBlocks c n s =
      .next
        (s.withHid (streamFn c m (cfgDir s.cfg) s.hid (blocksAt s.mem (srcAddr s) n)).1
          (s.mem.writeBytes (dstAddr s)
            (bytesOfBlocks (streamFn c m (cfgDir s.cfg) s.hid (blocksAt s.mem (srcAddr s) n)).2))) := by
  induction n with
  | zero => rfl
  | succ n ih =>
    have hn' : n * Config.B ≤ len := by rw [Nat.succ_mul] at hn; omega
    rw [cryptBlocks, ih hn', andThen_next, dstBlockAddr_withHid, srcBlockAddr_withHid,
      blockOp_eq (m := m) (by exact hmode) (by exact Memory.wf_writeBytes hm _ _) (block_ranges hr hn)]
    simp only [State.withHid_mem, State.withHid_hid, State.withHid_cfg, State.withHid_withHid]
    rw [readBlock_src_unchanged hm hr hn (by simp), blocksAt_succ, streamFn_append]
    simp only [streamFn, Memory.writeBytes_bytesOfBlocks_concat, length_streamFn, length_blocksAt]

end Sys2Proof.Machine
end

