-- ==== Sys2Proof/Laws/Decode.lean ====
section
/-! SUPPORT. A command word is made of its four fields (30_encoding.md R48), and the numbers of modes and directions. -/

namespace Sys2Proof

/-- A word is its fields, in order. -/
theorem word_eq_fields (w : Word) : w = wordMbz w ++ wordMode w ++ wordDir w ++ wordOp w := by
  refine BitVec.eq_of_getLsbD_eq fun i hi => ?_
  simp only [wordMbz, wordMode, wordDir, wordOp, BitVec.getLsbD_append, BitVec.getLsbD_extractLsb']
  by_cases h1 : i < 4
  · simp [h1]
  · by_cases h2 : i - 4 < 1
    · have : 4 + (i - 4) = i := by omega
      simp [h1, h2, this]
    · by_cases h3 : i - 4 - 1 < 3
      · have : 5 + (i - 4 - 1) = i := by omega
        simp [h1, h2, h3, this]
      · have : 8 + (i - 4 - 1 - 3) = i := by omega
        have h4 : i - 4 - 1 - 3 < 24 := by omega
        simp [h1, h2, h3, h4, this]

/-- Bits 7:4 are MODE and DIR. -/
theorem word_bits_7_4 (w : Word) : w.extractLsb' 4 4 = wordMode w ++ wordDir w := by
  refine BitVec.eq_of_getLsbD_eq fun i hi => ?_
  simp only [wordMode, wordDir, BitVec.getLsbD_append, BitVec.getLsbD_extractLsb']
  by_cases h1 : i < 1
  · simp [h1, hi]
  · have h2 : i - 1 < 3 := by omega
    have h3 : 5 + (i - 1) = 4 + i := by omega
    simp [h1, h2, h3, hi]

theorem modeOfBits_eq_some {b : BitVec 3} {m : Mode} : modeOfBits b = some m ↔ b = modeBits m := by
  rcases m with _ | _ | m <;> (try cases m) <;> revert b <;> decide

theorem modeOfBits_eq_none {b : BitVec 3} : modeOfBits b = none ↔ 4 < b.toNat := by
  revert b; decide

theorem directionBits_directionOfBits (b : BitVec 1) : directionBits (directionOfBits b) = b := by
  revert b; decide

theorem directionOfBits_directionBits (d : Direction) : directionOfBits (directionBits d) = d := by
  cases d <;> decide

/-- The word of a CONSTRUCT. -/
theorem encode_constructInstr (m : Mode) (d : Direction) :
    encode (constructInstr m d) = commandWord (modeBits m) (directionBits d) 1#4 := by
  rcases m with _ | _ | m <;> (try cases m) <;> rfl

end Sys2Proof
end

