-- ==== Sys2Proof/Laws/Status.lean ====
section
/-! SUPPORT. The fields of STATUS and CFG after each write of them. -/

namespace Sys2Proof.Machine

@[simp] theorem statusState_statusWith (w : Word) (c : BitVec 4) (k : BitVec 1) (b : BitVec 2) :
    statusState (statusWith w c k b) = b := by
  ext i hi
  simp only [statusState, statusWith, BitVec.getElem_extractLsb', BitVec.getLsbD_append]
  simp [hi]

@[simp] theorem statusSticky_statusWith (w : Word) (c : BitVec 4) (k : BitVec 1) (b : BitVec 2) :
    statusSticky (statusWith w c k b) = k := by
  ext i hi
  have : i = 0 := by omega
  subst this
  simp only [statusSticky, statusWith, BitVec.getElem_extractLsb', BitVec.getLsbD_append]
  simp

@[simp] theorem statusCode_statusWith (w : Word) (c : BitVec 4) (k : BitVec 1) (b : BitVec 2) :
    statusCode (statusWith w c k b) = c := by
  ext i hi
  simp only [statusCode, statusWith, BitVec.getElem_extractLsb', BitVec.getLsbD_append]
  have h1 : ¬ 4 + i < 2 := by omega
  have h2 : ¬ 4 + i - 2 < 1 := by omega
  have h3 : ¬ 4 + i - 2 - 1 < 1 := by omega
  have h4 : 4 + i - 2 - 1 - 1 = i := by omega
  simp [h1, h2, h3, h4, hi]

@[simp] theorem statusHigh_statusWith (w : Word) (c : BitVec 4) (k : BitVec 1) (b : BitVec 2) :
    (statusWith w c k b).extractLsb' 8 24 = w.extractLsb' 8 24 := by
  ext i hi
  simp only [statusWith, BitVec.getElem_extractLsb', BitVec.getLsbD_append]
  have h1 : ¬ 8 + i < 2 := by omega
  have h2 : ¬ 8 + i - 2 < 1 := by omega
  have h3 : ¬ 8 + i - 2 - 1 < 1 := by omega
  have h4 : ¬ 8 + i - 2 - 1 - 1 < 4 := by omega
  have h5 : 8 + i - 2 - 1 - 1 - 4 = i := by omega
  simp [h1, h2, h3, h4, h5, hi]

@[simp] theorem statusBit3_statusWith (w : Word) (c : BitVec 4) (k : BitVec 1) (b : BitVec 2) :
    (statusWith w c k b).extractLsb' 3 1 = w.extractLsb' 3 1 := by
  ext i hi
  have : i = 0 := by omega
  subst this
  simp only [statusWith, BitVec.getElem_extractLsb', BitVec.getLsbD_append]
  simp

@[simp] theorem statusState_statusAfter (w : Word) (c : Code) (b : BitVec 2) : statusState (statusAfter w c b) = b :=
  statusState_statusWith ..

@[simp] theorem statusCode_statusAfter (w : Word) (c : Code) (b : BitVec 2) :
    statusCode (statusAfter w c b) = codeBits c := statusCode_statusWith ..

@[simp] theorem statusSticky_statusAfter (w : Word) (c : Code) (b : BitVec 2) :
    statusSticky (statusAfter w c b) = if c = .ok then statusSticky w else 1#1 := statusSticky_statusWith ..

/-- All a completion does to STATUS. -/
theorem statusAfter_becomes (w : Word) (c : Code) (b : BitVec 2) : StatusBecomes w (statusAfter w c b) c b :=
  ⟨statusCode_statusAfter .., statusSticky_statusAfter .., statusState_statusAfter .., statusHigh_statusWith ..,
    statusBit3_statusWith ..⟩

@[simp] theorem cfgMode_cfgWord (m : Mode) (d : Direction) : cfgMode (cfgWord m d) = some m := by
  rcases m with _ | _ | m <;> cases d <;> (try cases m) <;> decide

@[simp] theorem cfgDir_cfgWord (m : Mode) (d : Direction) : cfgDir (cfgWord m d) = d := by
  rcases m with _ | _ | m <;> cases d <;> (try cases m) <;> decide

theorem cfgOk_cfgWord (m : Mode) (d : Direction) : CfgOk (cfgWord m d) := by
  rcases m with _ | _ | m <;> cases d <;> (try cases m) <;> decide

theorem codeBits_toNat_le (c : Code) : (codeBits c).toNat ≤ 6 := by cases c <;> decide

theorem codeBits_eq_zero {c : Code} : codeBits c = 0#4 ↔ c = .ok := by cases c <;> decide

theorem codeBits_injective {c d : Code} : codeBits c = codeBits d ↔ c = d := by cases c <;> cases d <;> decide

/-- A completion keeps STATUS as R33 item 1 has it. -/
theorem StatusOk.after {w : Word} (h : StatusOk w) (c : Code) {b : BitVec 2} (hb : b ≠ 3#2) :
    StatusOk (statusAfter w c b) := by
  refine ⟨?_, ?_, ?_, ?_, ?_⟩
  · exact (statusHigh_statusWith ..).trans h.1
  · exact (statusBit3_statusWith ..).trans h.2.1
  · simpa using hb
  · simpa using codeBits_toNat_le c
  · intro hc
    rw [statusCode_statusAfter] at hc
    simp [mt codeBits_eq_zero.2 hc]

end Sys2Proof.Machine
end

