-- ==== Sys2Proof/Laws/Exec.lean ====
section
/-! SUPPORT. All each command can do: one inversion lemma per shared operation of the commands, and the closed forms of the stream
function in each mode. -/

namespace Sys2Proof.Machine

/-! ### What the blocks leave alone -/

/-- A state that differs from another in its hidden registers and memory only. -/
def HidOnly (s t : State) : Prop := t = s.withHid t.hid t.mem

theorem HidOnly.refl (s : State) : HidOnly s s := rfl

theorem HidOnly.withHid (s : State) (h : Hid) (m : Memory) : HidOnly s (s.withHid h m) := rfl

theorem HidOnly.trans {s t u : State} (h1 : HidOnly s t) (h2 : HidOnly t u) : HidOnly s u := by
  unfold HidOnly at *
  rw [h1] at h2
  exact h2

theorem cbcDecByte_hidOnly {c : Collaborators} {d a j : Nat} {s t : State} (h : cbcDecByte c d a j s = .next t) :
    HidOnly s t ∧ t.ext = s.ext ∧ t.work = s.work := by
  unfold cbcDecByte at h
  split at h <;> (cases h; exact ⟨rfl, rfl, rfl⟩)

theorem cbcDecBytes_hidOnly {c : Collaborators} {d a n : Nat} {s t : State} (h : cbcDecBytes c d a n s = .next t) :
    HidOnly s t ∧ t.ext = s.ext ∧ t.work = s.work := by
  induction n generalizing t with
  | zero => cases h; exact ⟨rfl, rfl, rfl⟩
  | succ n ih =>
    obtain ⟨u, h1, h2⟩ := andThen_eq_next.1 h
    obtain ⟨a1, a2, a3⟩ := ih h1
    obtain ⟨b1, b2, b3⟩ := cbcDecByte_hidOnly h2
    exact ⟨a1.trans b1, b2.trans a2, b3.trans a3⟩

/-- A block operation changes hidden registers and memory only, and only those of its mode (42_mode_selector.md R87, R91, R97). -/
theorem blockOp_hidOnly {c : Collaborators} {d a : Nat} {s t : State} (h : blockOp c d a s = .next t) :
    HidOnly s t ∧ (cfgMode s.cfg ≠ some .cbc → t.chain = s.chain ∧ t.work = s.work) ∧
      ((∀ k, cfgMode s.cfg ≠ some (.ext k)) → t.ext = s.ext) := by
  unfold blockOp at h
  split at h
  · rename_i hm hd
    rw [cbcEnc_eq] at h; cases h; exact ⟨rfl, by simp [hm], fun _ => rfl⟩
  · rename_i hm hd
    rw [cbcDec, cbcDecCipher, andThen_next] at h
    obtain ⟨b1, b2, _⟩ := cbcDecBytes_hidOnly h
    exact ⟨HidOnly.trans (rfl : HidOnly s { s with work := some (c.dec (s.mem.readBlock a)) }) b1, by simp [hm], fun _ => b2⟩
  · cases h; exact ⟨rfl, fun _ => ⟨rfl, rfl⟩, fun _ => rfl⟩
  · cases h; exact ⟨rfl, fun _ => ⟨rfl, rfl⟩, fun _ => rfl⟩
  · rename_i k d' hm
    rw [extBlock_eq, Host.Outcome.next.injEq] at h
    subst h
    exact ⟨by simp only [HidOnly, State.withHid, State.hid], fun _ => ⟨rfl, rfl⟩, fun hk => absurd hm (hk _)⟩
  · cases h

theorem cryptBlocks_hidOnly {c : Collaborators} {n : Nat} {s t : State} (h : cryptBlocks c n s = .next t) :
    HidOnly s t ∧ (cfgMode s.cfg ≠ some .cbc → t.chain = s.chain ∧ t.work = s.work) ∧
      ((∀ k, cfgMode s.cfg ≠ some (.ext k)) → t.ext = s.ext) := by
  induction n generalizing t with
  | zero => cases h; exact ⟨rfl, fun _ => ⟨rfl, rfl⟩, fun _ => rfl⟩
  | succ n ih =>
    obtain ⟨u, h1, h2⟩ := andThen_eq_next.1 h
    obtain ⟨a1, a2, a3⟩ := ih h1
    obtain ⟨b1, b2, b3⟩ := blockOp_hidOnly h2
    have hc : u.cfg = s.cfg := by rw [a1]; rfl
    rw [hc] at b2 b3
    refine ⟨a1.trans b1, fun hm => ?_, fun hk => (b3 hk).trans (a3 hk)⟩
    exact ⟨(b2 hm).1.trans (a2 hm).1, (b2 hm).2.trans (a2 hm).2⟩

/-! ### CRYPT -/

theorem exec_crypt (s : State) : exec .crypt s = cryptWith Config.given.toCollaborators s := rfl

theorem cryptCheck_eq_none {b : BitVec 2} {s : State} :
    cryptCheck b s = none ↔ b = stateReady ∧ srcLen s % Config.B = 0 ∧ srcLen s ≤ dstLen s := by
  unfold cryptCheck
  split
  · simp_all
  · split
    · simp_all
    · split
      · simp_all
      · simp_all

/-- All the three checks can answer. -/
theorem cryptCheck_eq_some {b : BitVec 2} {s : State} {code : Code} :
    cryptCheck b s = some code ↔
      (code = .notConstructed ∧ b ≠ stateReady) ∨
        (code = .invalidLength ∧ b = stateReady ∧ srcLen s % Config.B ≠ 0) ∨
        (code = .bufferTooSmall ∧ b = stateReady ∧ srcLen s % Config.B = 0 ∧ dstLen s < srcLen s) := by
  unfold cryptCheck
  split
  · rename_i h; simp [h]; exact eq_comm
  · rename_i h
    have h : b = stateReady := by simpa using h
    split
    · rename_i h2; simp [h, h2]; exact eq_comm
    · rename_i h2
      have h2 : srcLen s % Config.B = 0 := by simpa using h2
      split
      · rename_i h3; simp [h, h2, h3]; exact eq_comm
      · rename_i h3; simp [h, h2, h3]

/-- All CRYPT can do: a failing check ends it with its code; else the ranges have a meaning and the blocks run. -/
theorem cryptWith_eq_next {c : Collaborators} {s t : State} :
    cryptWith c s = .next t ↔
      (∃ code, cryptCheck (statusState s.status) s = some code ∧ t = s.finish code) ∨
        (CryptChecksPass s ∧ CryptRangesOk s ∧ ∃ u, cryptBlocks c (blockCount s) s = .next u ∧ t = u.finish .ok) := by
  unfold cryptWith
  cases hc : cryptCheck (statusState s.status) s with
  | some code =>
    have hn : ¬ CryptChecksPass s := by
      intro h
      rw [cryptCheck_eq_none.2 h] at hc
      cases hc
    simp only [Host.Outcome.next.injEq, Option.some.injEq, exists_eq_left', hn, false_and, or_false]
    exact eq_comm
  | none =>
    simp only [withCryptRanges_eq_next, andThen_eq_next, reduceCtorEq, false_and, exists_false, false_or,
      Host.Outcome.next.injEq, CryptChecksPass, cryptCheck_eq_none.1 hc, and_self, true_and]
    constructor
    · rintro ⟨h1, u, h2, h3⟩; exact ⟨h1, u, h2, h3.symm⟩
    · rintro ⟨h1, u, h2, h3⟩; exact ⟨h1, u, h2, h3.symm⟩

theorem srcLen_eq_blocks {s : State} (h : CryptChecksPass s) : blockCount s * Config.B = srcLen s :=
  Nat.div_mul_cancel (Nat.dvd_of_mod_eq_zero h.2.1)

theorem CryptRangesOk.ranges {s : State} (h : CryptRangesOk s) :
    disjoint (dstAddr s) (srcAddr s) (srcLen s) = true ∨ dstAddr s = srcAddr s := by
  obtain h | ⟨_, _, h⟩ := h
  · left; simp [disjoint, h]
  · exact h

/-- A CRYPT that runs, in a mode a rule produces, completes: it follows `streamFn` over its source blocks. -/
theorem cryptWith_of_runs {c : Collaborators} {m : Mode} {s : State} (hr : CryptRuns s) (hmode : cfgMode s.cfg = some m) :
    cryptWith c s =
      .next
        ((s.withHid (streamFn c m (cfgDir s.cfg) s.hid (srcBlocks s)).1
          (s.mem.writeBytes (dstAddr s)
            (bytesOfBlocks (streamFn c m (cfgDir s.cfg) s.hid (srcBlocks s)).2))).finish .ok) :=
  cryptWith_eq_next.2 <| .inr ⟨hr.1, hr.2.1, _,
    cryptBlocks_eq hmode hr.2.2 hr.2.1.ranges (Nat.le_of_eq (srcLen_eq_blocks hr.1)), rfl⟩

/-- A CRYPT that passes its checks and answers a next state has ranges with a meaning. -/
theorem runs_of_cryptWith {c : Collaborators} {s t : State} (hp : CryptChecksPass s) (hm : s.mem.wf)
    (ht : cryptWith c s = .next t) : CryptRuns s := by
  obtain ⟨code, hc, _⟩ | ⟨_, hr, _⟩ := cryptWith_eq_next.1 ht
  · rw [cryptCheck_eq_none.2 hp] at hc; cases hc
  · exact ⟨hp, hr, hm⟩

/-- Every outcome of CRYPT leaves everything but hidden registers, memory and STATUS alone. -/
theorem cryptWith_hidOnly {c : Collaborators} {s t : State} (h : cryptWith c s = .next t) :
    ∃ code, t = (s.withHid t.hid t.mem).finish code ∧
      (cfgMode s.cfg ≠ some .cbc → t.chain = s.chain ∧ t.work = s.work) ∧
      ((∀ k, cfgMode s.cfg ≠ some (.ext k)) → t.ext = s.ext) := by
  obtain ⟨code, _, rfl⟩ | ⟨_, _, u, hu, rfl⟩ := cryptWith_eq_next.1 h
  · exact ⟨code, rfl, fun _ => ⟨rfl, rfl⟩, fun _ => rfl⟩
  · obtain ⟨h1, h2, h3⟩ := cryptBlocks_hidOnly hu
    refine ⟨.ok, ?_, h2, h3⟩
    conv => lhs; rw [h1]
    rfl

/-! ### The stream function in each mode -/

theorem streamFn_cbc_encrypt (c : Collaborators) (h : Hid) (xs : List Block) :
    streamFn c .cbc .encrypt h xs =
      ({ h with
        chain := lastBlock h.chain (cbcEncStream c.enc (h.chain.getD c.unwrittenChain) xs)
        work := cbcEncWork c.enc (h.chain.getD c.unwrittenChain) h.work xs },
        cbcEncStream c.enc (h.chain.getD c.unwrittenChain) xs) := by
  induction xs generalizing h with
  | nil => rfl
  | cons x xs ih => rw [streamFn, blockFn, ih]; rfl

theorem streamFn_cbc_decrypt (c : Collaborators) (h : Hid) (xs : List Block) :
    streamFn c .cbc .decrypt h xs =
      ({ h with chain := lastBlock h.chain xs, work := cbcDecWork c.dec h.work xs },
        cbcDecStream c.dec (h.chain.getD c.unwrittenChain) xs) := by
  induction xs generalizing h with
  | nil => rfl
  | cons x xs ih => rw [streamFn, blockFn, ih]; rfl

theorem streamFn_ecb_encrypt (c : Collaborators) (h : Hid) (xs : List Block) :
    streamFn c .ecb .encrypt h xs = (h, xs.map c.enc) := by
  induction xs with
  | nil => rfl
  | cons x xs ih => rw [streamFn, blockFn, ih]; rfl

theorem streamFn_ecb_decrypt (c : Collaborators) (h : Hid) (xs : List Block) :
    streamFn c .ecb .decrypt h xs = (h, xs.map c.dec) := by
  induction xs with
  | nil => rfl
  | cons x xs ih => rw [streamFn, blockFn, ih]; rfl

/-- In a mode with a given transform, a nonempty stream is one application of the transform to all its bytes, by `EXT_LEN` and
`EXT_STREAM` (42_mode_selector.md R94, R97). -/
theorem streamFn_ext (g : Given) (k : ExtMode) (d : Direction) (h : Hid) (x : Block) (xs : List Block) :
    (streamFn g.toCollaborators (.ext k) d h (x :: xs)).1 =
        { h with ext := some (g.extXform k (h.ext.getD g.unwrittenExt) (bytesOfBlocks (x :: xs))).1 } ∧
      bytesOfBlocks (streamFn g.toCollaborators (.ext k) d h (x :: xs)).2 =
        (g.extXform k (h.ext.getD g.unwrittenExt) (bytesOfBlocks (x :: xs))).2 := by
  have hl : ∀ e (y : Block), (g.extXform k e y.toList).2.length = Config.B := fun e y => by rw [g.ext_len]; simp
  induction xs generalizing h x with
  | nil =>
    simp only [bytesOfBlocks, List.append_nil]
    exact ⟨rfl, (List.append_nil _).trans (toList_blockOfBytes (hl _ _))⟩
  | cons x' xs ih =>
    obtain ⟨h1, h2⟩ := ih (blockFn g.toCollaborators (.ext k) d h x).1 x'
    rw [bytesOfBlocks.eq_2 x, g.ext_stream]
    refine ⟨h1.trans rfl, ?_⟩
    rw [streamFn]
    dsimp only
    rw [bytesOfBlocks.eq_2 (blockFn g.toCollaborators (.ext k) d h x).2, h2]
    simp only [blockFn, Option.getD_some]
    rw [toList_blockOfBytes (hl _ _)]

end Sys2Proof.Machine
end

