-- ==== Sys2Proof/Laws/PerInstr.lean ====
section
/-! SUPPORT. The family Encoding: what is said of each command as syntax, one lemma per constructor. -/

namespace Sys2Proof.Laws.Encoding

/-- The word of a well-formed command decodes to it, by the decoder and by the table's numbering (30_encoding.md R48 to R58). -/
def Statement (i : Sys2Proof.Instr) : Prop :=
  i.wellFormed = true →
    Sys2Proof.decode (Sys2Proof.encode i) = .instr i ∧
      Sys2Proof.decodeTableWord 32 (Sys2Proof.encode i).toNat = some i

theorem constructEcb (dir : Direction) : Statement (.constructEcb dir) := fun _ => by cases dir <;> decide

theorem constructCbc (dir : Direction) : Statement (.constructCbc dir) := fun _ => by cases dir <;> decide

theorem constructCfb (dir : Direction) : Statement (.constructCfb dir) := fun _ => by cases dir <;> decide

theorem constructOfb (dir : Direction) : Statement (.constructOfb dir) := fun _ => by cases dir <;> decide

theorem constructCtr (dir : Direction) : Statement (.constructCtr dir) := fun _ => by cases dir <;> decide

theorem blksize : Statement .blksize := fun _ => by decide

theorem crypt : Statement .crypt := fun _ => by decide

end Sys2Proof.Laws.Encoding
end

