-- ==== Sys2Proof/Laws/Step.lean ====
section
/-! SUPPORT. What a step is, between commands and while a CRYPT runs. -/

namespace Sys2Proof.Machine

/-- Between commands a step serves the host's next operation. -/
theorem step_host {s : State} {op : HostOp} {rest : List HostOp} (hq : s.seq = none) (hh : s.host = op :: rest) :
    step s = serve op { s with host := rest } := by
  unfold step hostStep
  rw [hq, hh]

/-- Between commands, without an operation of the host, a step changes nothing. -/
theorem step_idle {s : State} (hq : s.seq = none) (hh : s.host = []) : step s = .next s := by
  unfold step hostStep
  rw [hq, hh]

/-- While a CRYPT runs a step is one phase of it. -/
theorem step_busy {s : State} {q : Seq} (hq : s.seq = some q) :
    step s = phaseStep Config.given.toCollaborators q s := by
  unfold step
  rw [hq]

/-- All a step can do. -/
theorem step_cases {s t : State} (h : step s = .next t) :
    (∃ q, s.seq = some q ∧ phaseStep Config.given.toCollaborators q s = .next t) ∨
      (s.seq = none ∧ s.host = [] ∧ t = s) ∨
      (s.seq = none ∧ ∃ op rest, s.host = op :: rest ∧ serve op { s with host := rest } = .next t) := by
  obtain hq | ⟨q, hq⟩ := Option.eq_none_or_eq_some s.seq
  · obtain hh | ⟨op, rest, hh⟩ : s.host = [] ∨ ∃ op rest, s.host = op :: rest := by cases s.host <;> simp
    · rw [step_idle hq hh] at h; cases h; exact .inr (.inl ⟨hq, hh, rfl⟩)
    · rw [step_host hq hh] at h; exact .inr (.inr ⟨hq, op, rest, hh, h⟩)
  · rw [step_busy hq] at h; exact .inl ⟨q, hq, h⟩

/-- All a CONSTRUCT with an IV can do. -/
theorem constructWithIv_eq_next {m : Mode} {d : Direction} {load : Block → State → State} {s t : State} :
    constructWithIv m d load s = .next t ↔
      (s.arg1 ≠ 16#32 ∧ t = s.finish .invalidKeyOrIV) ∨
        (IvOk s ∧ t = (load (s.mem.readBlock (ivAddr s)) s).construct m d) := by
  have e : ivLen s ≠ Config.B ↔ s.arg1 ≠ 16#32 := by
    unfold ivLen
    constructor
    · intro h h'; rw [h'] at h; exact h rfl
    · intro h h'; exact h (BitVec.eq_of_toNat_eq h')
  unfold constructWithIv
  by_cases h : ivLen s ≠ Config.B
  · have h' := e.1 h
    rw [if_pos h]
    simp only [Host.Outcome.next.injEq, IvOk, h', ne_eq, not_false_eq_true, true_and, false_and, or_false]
    exact eq_comm
  · have h' : s.arg1 = 16#32 := by
      by_contra hc; exact h (e.2 hc)
    rw [if_neg h, withRange_eq_next]
    simp only [Host.Outcome.next.injEq, IvOk, h', ne_eq, not_true, false_and, false_or, true_and]
    constructor <;> rintro ⟨a, b⟩ <;> exact ⟨a, b.symm⟩

/-- All a host write of CMD can do: a command, or a completion with code 4 or 6. -/
theorem runWord_eq_next {w : Word} {s t : State} :
    runWord w s = .next t ↔
      (∃ i, decode w = .instr i ∧ exec i s = .next t) ∨
        (decode w = .reservedMode ∧ t = s.finish .unsupportedMode) ∨
        (decode w = .illegal ∧ t = s.finish .illegalCommand) := by
  unfold runWord
  cases decode w with
  | instr i => simp
  | reservedMode => simp; exact eq_comm
  | illegal => simp; exact eq_comm

/-- All a command can do: a failing completion, BLKSIZE, a successful CONSTRUCT, or a CRYPT whose blocks ran. -/
theorem exec_cases {i : Instr} {s t : State} (h : exec i s = .next t) :
    (∃ code, code ≠ .ok ∧ t = s.finish code) ∨
      (i = .blksize ∧ t = State.finish .ok { s with result := BitVec.ofNat 32 Config.B }) ∨
      (∃ d, i = .constructEcb d ∧ t = s.construct .ecb d) ∨
      (∃ d, i = .constructCbc d ∧ IvOk s ∧ t = (loadChain (s.mem.readBlock (ivAddr s)) s).construct .cbc d) ∨
      (∃ k d, i = constructInstr (.ext k) d ∧ IvOk s ∧
        t = (loadExt Config.given.toCollaborators k d (s.mem.readBlock (ivAddr s)) s).construct (.ext k) d) ∨
      (i = .crypt ∧ CryptChecksPass s ∧ CryptRangesOk s ∧
        ∃ u, cryptBlocks Config.given.toCollaborators (blockCount s) s = .next u ∧ t = u.finish .ok) := by
  cases i with
  | constructEcb d => cases h; exact .inr (.inr (.inl ⟨d, rfl, rfl⟩))
  | constructCbc d =>
    obtain ⟨_, rfl⟩ | ⟨h1, rfl⟩ := constructWithIv_eq_next.1 h
    · exact .inl ⟨_, by decide, rfl⟩
    · exact .inr (.inr (.inr (.inl ⟨d, rfl, h1, rfl⟩)))
  | constructCfb d =>
    obtain ⟨_, rfl⟩ | ⟨h1, rfl⟩ := constructWithIv_eq_next.1 h
    · exact .inl ⟨_, by decide, rfl⟩
    · exact .inr (.inr (.inr (.inr (.inl ⟨.cfb, d, rfl, h1, rfl⟩))))
  | constructOfb d =>
    obtain ⟨_, rfl⟩ | ⟨h1, rfl⟩ := constructWithIv_eq_next.1 h
    · exact .inl ⟨_, by decide, rfl⟩
    · exact .inr (.inr (.inr (.inr (.inl ⟨.ofb, d, rfl, h1, rfl⟩))))
  | constructCtr d =>
    obtain ⟨_, rfl⟩ | ⟨h1, rfl⟩ := constructWithIv_eq_next.1 h
    · exact .inl ⟨_, by decide, rfl⟩
    · exact .inr (.inr (.inr (.inr (.inl ⟨.ctr, d, rfl, h1, rfl⟩))))
  | blksize => cases h; exact .inr (.inl ⟨rfl, rfl⟩)
  | crypt =>
    obtain ⟨code, hc, rfl⟩ | ⟨h1, h2, u, h3, rfl⟩ := cryptWith_eq_next.1 h
    · refine .inl ⟨code, ?_, rfl⟩
      obtain ⟨rfl, _⟩ | ⟨rfl, _⟩ | ⟨rfl, _⟩ := cryptCheck_eq_some.1 hc <;> decide
    · exact .inr (.inr (.inr (.inr (.inr ⟨rfl, h1, h2, u, h3, rfl⟩))))

/-- A completion overwrites what a running CRYPT did to STATUS. -/
theorem statusAfter_statusBusy (w : Word) (c : Code) (b : BitVec 2) :
    statusAfter (statusBusy w) c b = statusAfter w c b := by
  unfold statusAfter statusBusy
  have h1 : stickyAfter (statusWith w (statusCode w) (statusSticky w) stateBusy) c = stickyAfter w c := by
    simp [stickyAfter]
  rw [h1]
  unfold statusWith
  have h2 := statusHigh_statusWith w (statusCode w) (statusSticky w) stateBusy
  have h3 := statusBit3_statusWith w (statusCode w) (statusSticky w) stateBusy
  unfold statusWith at h2 h3
  rw [h2, h3]

@[simp] theorem statusState_statusBusy (w : Word) : statusState (statusBusy w) = stateBusy := statusState_statusWith ..

@[simp] theorem statusSticky_statusBusy (w : Word) : statusSticky (statusBusy w) = statusSticky w :=
  statusSticky_statusWith ..

@[simp] theorem statusCode_statusBusy (w : Word) : statusCode (statusBusy w) = statusCode w := statusCode_statusWith ..

end Sys2Proof.Machine
end

