-- ==== Sys2Proof/Tests/Slice0.lean ====
section
/-! SUPPORT. The model's own tests. Every expected value stands in 95_test_vectors.md or is worked out from the rule named beside it.
Then, for every statement with hypotheses, states that meet them. -/

namespace Sys2Proof.Tests

open Sys2Proof Sys2Proof.Machine

/-! ### Well-formed terms: each check refuses an ill-formed term -/

/-- U6: there are eight registers. -/
theorem test_wellFormed_register :
    (HostOp.write 8 0#32).wellFormed = false ∧ (HostOp.read 8).wellFormed = false ∧
      (HostOp.write 7 0#32).wellFormed = true ∧ (HostOp.read 7).wellFormed = true := by decide

/-- R34: a window lies inside the address space. -/
theorem test_wellFormed_region :
    Region.wellFormed ⟨1, 2 ^ 32, true, true, false⟩ = false ∧
      Region.wellFormed ⟨0, 2 ^ 32, true, true, false⟩ = true := by decide

theorem test_wellFormed_instr :
    Instr.wellFormed (.constructEcb .encrypt) = true ∧ Instr.wellFormed .blksize = true ∧
      Instr.wellFormed .crypt = true := by decide

/-! ### Decoding: words written out from 30_encoding.md R48 (bits 31:8, MODE, DIR, OP) and V16 -/

theorem test_decode_construct :
    decode 0b000000000000000000000000_000_0_0001#32 = .instr (.constructEcb .encrypt) ∧
      decode 0b000000000000000000000000_001_1_0001#32 = .instr (.constructCbc .decrypt) ∧
      decode 0b000000000000000000000000_010_0_0001#32 = .instr (.constructCfb .encrypt) ∧
      decode 0b000000000000000000000000_011_1_0001#32 = .instr (.constructOfb .decrypt) ∧
      decode 0b000000000000000000000000_100_1_0001#32 = .instr (.constructCtr .decrypt) := by decide

theorem test_decode_query_and_crypt :
    decode 0b000000000000000000000000_000_0_0010#32 = .instr .blksize ∧
      decode 0b000000000000000000000000_000_0_0011#32 = .instr .crypt := by decide

/-- V16: the reserved and illegal words; `0x1A1` shows that bits 31:8 are tested before the mode. -/
theorem test_decode_rejects :
    decode 0xA1#32 = .reservedMode ∧ decode 0xF1#32 = .reservedMode ∧ decode 0x0#32 = .illegal ∧ decode 0x4#32 = .illegal ∧
      decode 0xF#32 = .illegal ∧ decode 0x12#32 = .illegal ∧ decode 0x22#32 = .illegal ∧ decode 0x13#32 = .illegal ∧
      decode 0x23#32 = .illegal ∧ decode 0x103#32 = .illegal ∧ decode 0x80000001#32 = .illegal ∧
      decode 0x1A1#32 = .illegal := by decide

/-! ### Memory -/

/-- A write of the byte an unlisted address reads as removes the cell; cells stay sorted. -/
theorem test_memory_form :
    Memory.write (Memory.write (Memory.write [] 7 1#8) 3 2#8) 7 0#8 = [(3, 2#8)] ∧
      Memory.write [(3, 2#8)] 2 9#8 = [(2, 9#8), (3, 2#8)] ∧ Memory.wf [(3, 2#8)] ∧ ¬ Memory.wf [(3, 0#8)] ∧
      ¬ Memory.wf [(3, 2#8), (3, 1#8)] := by decide

/-- R34, R40: a device window of size 0 holds no address, one of size 1 holds its base, and an empty range touches nothing. -/
theorem test_touchesDevice_size :
    touchesDevice [⟨0x2008, 0, true, true, true⟩] 0x2000 16 = false ∧
      touchesDevice [⟨0x200F, 1, true, true, true⟩] 0x2000 16 = true ∧
      touchesDevice [⟨0x2010, 1, true, true, true⟩] 0x2000 16 = false ∧
      touchesDevice [⟨0x2000, 16, true, true, true⟩] 0x2008 0 = false := by decide

/-! ### The test primitive TOY16 of 95_test_vectors.md section 2, and the transforms of 42_mode_selector.md R98 over it -/

/-- `TOY16.Enc`. -/
def toyEnc (x : Block) : Block :=
  Vector.ofFn fun j : Fin Config.B => x.toList.getD ((j.val + 1) % 16) 0#8 + BitVec.ofNat 8 (0x12 * j.val)

/-- `TOY16.Dec`: byte `i` comes from byte `i - 1`. -/
def toyDec (y : Block) : Block :=
  Vector.ofFn fun i : Fin Config.B =>
    y.toList.getD ((i.val + 15) % 16) 0#8 - BitVec.ofNat 8 (0x12 * ((i.val + 15) % 16))

def xorBytes (xs ys : List Byte) : List Byte := List.zipWith (· ^^^ ·) xs ys

/-- A byte string plus one, as a big-endian number. -/
def nextCounter : List Byte → List Byte × Bool
  | [] => ([], true)
  | b :: bs =>
    match nextCounter bs with
    | (cs, true) => ((b + 1#8) :: cs, decide (b = 0xFF#8))
    | (cs, false) => (b :: cs, false)

/-- The transforms of R98. In CFB the string ends with one more byte, the direction: R98's CFB knows it. -/
def toy : Collaborators where
  enc := toyEnc
  dec := toyDec
  extInit m _ _ d iv :=
    match m, d with
    | .cfb, .encrypt => iv.toList ++ [0#8]
    | .cfb, .decrypt => iv.toList ++ [1#8]
    | .ofb, _ => iv.toList
    | .ctr, _ => iv.toList
  extXform m e x :=
    let o := (toyEnc (blockOfBytes (e.take 16))).toList
    match m with
    | .cfb => ((if e.getD 16 0#8 = 0#8 then xorBytes x o else x) ++ e.drop 16, xorBytes x o)
    | .ofb => (o, xorBytes x o)
    | .ctr => ((nextCounter e).1, xorBytes x o)
  unwrittenChain := blockOfBytes (List.replicate 16 0x5a#8)
  unwrittenWork := blockOfBytes (List.replicate 16 0x5b#8)
  unwrittenExt := List.replicate 17 0x5c#8

/-- Bytes of a big-endian numeral, the way the vectors are printed. -/
def bytesOf (n v : Nat) : List Byte := (List.range n).map fun i => BitVec.ofNat 8 (v >>> (8 * (n - 1 - i)))

def blockOf (v : Nat) : Block := blockOfBytes (bytesOf 16 v)

/-- ASCII "0123456789abcdef". -/
def iv : Block := blockOf 0x30313233343536373839616263646566

/-- `aa x16`. -/
def aa : Block := blockOf 0xaaaaaaaaaaaaaaaaaaaaaaaaaaaaaaaa

def c1 : Block := blockOf 0x9baabdd4e7f60910236d7c8fa6b9c8a8

def c2 : Block := blockOf 0x0029a283a4fd26075778d9d2eb4cfe3f

/-- Memory with a block at `0x2000` and one at `0x2010`. -/
def twoBlocks (x y : Block) : Memory := Memory.writeBlock (Memory.writeBlock [] 0x2000 x) 0x2010 y

/-- A test on the next state, false where there is none. -/
def after (o : Result) (p : State → Bool) : Bool :=
  match o with
  | .next s => p s
  | .fault _ => false
  | .refused _ => false

/-- R73: with CHAIN and WORK empty CBC.ENC still runs, over whatever CHAIN reads as, and both hold a value afterwards. -/
theorem test_cbc_enc_empty_chain :
    after (cbcEnc toy 0x2010 0x2000 { State.reset with mem := twoBlocks aa c1 })
      (fun t => t.work = some (xorBlock toy.unwrittenChain aa) && t.chain = some (toyEnc (xorBlock toy.unwrittenChain aa))) =
        true := by decide

/-- 95_test_vectors.md section 2, check values. -/
theorem test_toy_check_values :
    toyEnc (blockOf 0x000102030405060708090a0b0c0d0e0f) = blockOf 0x0114273a4d60738699acbfd2e5f80b0e ∧
      toyDec (blockOf 0x0114273a4d60738699acbfd2e5f80b0e) = blockOf 0x000102030405060708090a0b0c0d0e0f ∧
      toyEnc iv = blockOf 0x3144576a7d90a3b6c90316293c4f623e := by decide

/-! ### Commands -/

/-- V11, V16, P3: CONSTRUCT.ECB from reset, with any ARG1. -/
theorem test_construct_ecb :
    after (exec (.constructEcb .encrypt) State.reset) (fun t => t.status = 0x01#32 && t.cfg = 0#32) = true ∧
      after (exec (.constructEcb .decrypt) { State.reset with status := 0x54#32, arg1 := 17#32 })
        (fun t => t.status = 0x05#32 && t.cfg = 0x10#32) = true := by decide

/-- The IV at `0x1000`, ARG1 as given. -/
def ivState (len : Word) : State :=
  { State.reset with arg0 := 0x1000#32, arg1 := len, mem := Memory.writeBlock [] 0x1000 iv }

/-- V1, V11: CONSTRUCT.CBC seeds CHAIN with the IV; with ARG1 = 15 it fails. -/
theorem test_construct_cbc :
    after (exec (.constructCbc .encrypt) (ivState 16#32))
        (fun t => t.status = 0x01#32 && t.cfg = 0x20#32 && t.chain = some iv && t.work = none && t.ext = none) = true ∧
      after (exec (.constructCbc .decrypt) (ivState 15#32))
        (fun t => t.status = 0x14#32 && t.cfg = 0#32 && t.chain = none) = true := by decide

/-- V11: CONSTRUCT.CFB. -/
theorem test_construct_cfb :
    after (exec (.constructCfb .encrypt) (ivState 16#32)) (fun t => t.status = 0x01#32 && t.cfg = 0x40#32) = true ∧
      after (exec (.constructCfb .encrypt) (ivState 17#32)) (fun t => t.status = 0x14#32 && t.ext = none) = true := by
  decide

/-- V11, V13: CONSTRUCT.OFB. -/
theorem test_construct_ofb :
    after (exec (.constructOfb .decrypt) (ivState 16#32)) (fun t => t.status = 0x01#32 && t.cfg = 0x70#32) = true ∧
      after (exec (.constructOfb .encrypt) (ivState 0#32)) (fun t => t.status = 0x14#32 && t.ext = none) = true := by
  decide

/-- V11, V15, V16: CONSTRUCT.CTR. -/
theorem test_construct_ctr :
    after (exec (.constructCtr .decrypt) (ivState 16#32)) (fun t => t.status = 0x01#32 && t.cfg = 0x90#32) = true ∧
      after (exec (.constructCtr .encrypt) (ivState 32#32)) (fun t => t.status = 0x14#32 && t.ext = none) = true := by
  decide

/-- P3, line 7: BLKSIZE in IDLE after failures. -/
theorem test_blksize :
    after (exec .blksize { State.reset with status := 0x64#32 }) (fun t => t.status = 0x04#32 && t.result = 16#32) = true := by
  decide

/-- V11, V12, V16: the outcomes of CRYPT that run no block, READY or IDLE. -/
theorem test_crypt_checks :
    ([(16, 1, 0x25), (0, 17, 0x25), (15, 16, 0x35), (31, 32, 0x35), (5, 0, 0x01), (0xFFFFFFFF, 0xFFFFFFFF, 0x25),
        (0xFFFFFFF0, 0xFFFFFFF8, 0x25), (0, 0xFFFFFFF0, 0x35)].all fun r : Nat × Nat × Nat =>
      after
        (exec .crypt
          { State.reset with
            status := 1#32, cfg := 0x20#32, arg0 := 0xFFFFFFFF#32, arg1 := BitVec.ofNat 32 r.1, arg2 := 0xFFFFFFF0#32,
            arg3 := BitVec.ofNat 32 r.2.1 })
        fun t => t.status = BitVec.ofNat 32 r.2.2) = true ∧
      after (exec .crypt State.reset) (fun t => t.status = 0x54#32) = true := by decide

/-- V1: CBC encryption of `aa x32` with TOY16: ciphertext, CHAIN, WORK, and the byte after it. -/
theorem test_crypt_cbc_encrypt :
    after
      (cryptWith toy
        { State.reset with
          status := 1#32, cfg := 0x20#32, chain := some iv, arg0 := 0x3000#32, arg1 := 48#32, arg2 := 0x2000#32,
          arg3 := 32#32, mem := (twoBlocks aa aa).write 0x3020 0x55#8 })
      (fun t =>
        t.status = 0x01#32 && t.mem.readBlock 0x3000 = c1 && t.mem.readBlock 0x3010 = c2 && t.mem.read 0x3020 = 0x55#8 &&
          t.chain = some c2 && t.work = some (blockOf 0x3100177e4d5ca3ba89c7d6250c136202)) = true := by decide

/-! ### One block, with TOY16 -/

/-- V4, P2: CBC.DEC in place: the plaintext replaces the ciphertext, CHAIN takes the ciphertext as it was before. -/
theorem test_cbc_dec_in_place :
    after (cbcDec toy 0x2000 0x2000 { State.reset with chain := some iv, mem := twoBlocks c1 c2 })
      (fun t =>
        t.mem = twoBlocks aa c2 && t.chain = some c1 &&
          t.work = some (blockOf 0x9a9b98999e9f9c9d9293cbc8c9cecfcc)) = true := by decide

/-- V9, V10: ECB.ENC and ECB.DEC. -/
theorem test_ecb_blocks :
    after (ecbEnc toy 0x2010 0x2000 { State.reset with mem := twoBlocks (blockOf 0x000102030405060708090a0b0c0d0e0f) aa })
        (fun t => t.mem.readBlock 0x2010 = blockOf 0x0114273a4d60738699acbfd2e5f80b0e) = true ∧
      after (ecbDec toy 0x2000 0x2000 { State.reset with mem := twoBlocks (blockOf 0x0114273a4d60738699acbfd2e5f80b0e) aa })
        (fun t => t.mem.readBlock 0x2000 = blockOf 0x000102030405060708090a0b0c0d0e0f) = true := by decide

/-- V13, V14, V15: one block of each given transform. -/
theorem test_ext_blocks :
    ([ExtMode.cfb, .ofb, .ctr].all fun k =>
      after (extBlock toy k 0x3000 0x2000
          { State.reset with ext := some (toy.extInit k toyEnc toyDec .encrypt iv), mem := twoBlocks aa aa })
        (fun t => t.mem.readBlock 0x3000 = blockOf 0x9beefdc0d73a091c63a9bc8396e5c894)) = true ∧
      after (extBlock toy .ctr 0x3000 0x2000
          { State.reset with ext := some (toy.extInit .ctr toyEnc toyDec .decrypt iv), mem := twoBlocks aa aa })
        (fun t => t.ext = some (bytesOf 16 0x30313233343536373839616263646567)) = true := by decide

/-! ### Witnesses: for every statement with hypotheses, concrete states and operands that meet them all -/

/-- READY in a mode and a direction, with a CRYPT of two blocks set up: source `0x2000`, destination `0x3000`. -/
def ready (m : Mode) (d : Direction) : State :=
  { State.reset with
    status := 1#32, cfg := cfgWord m d, chain := some iv, ext := some [], arg0 := 0x3000#32, arg1 := 32#32,
    arg2 := 0x2000#32, arg3 := 32#32, mem := twoBlocks aa c1 }

/-- The same in place. -/
def readyInPlace (m : Mode) (d : Direction) : State := { ready m d with arg0 := 0x2000#32 }

/-- Reset, with the host about to do one thing. -/
def hosted (op : HostOp) : State := { State.reset with host := [op] }

theorem witness_ResetLeavesTheStatedValues :
    (hosted .reset).seq = none ∧ (hosted .reset).host = HostOp.reset :: [] := by decide

theorem witness_StepRunsTheDecodedCommand :
    (hosted (.write 0 0x31#32)).seq = none ∧ (hosted (.write 0 0x31#32)).host = HostOp.write 0 0x31#32 :: [] ∧
      decode 0x31#32 = .instr (.constructCbc .decrypt) ∧ Instr.wellFormed (.constructCbc .decrypt) = true := by decide

/-- Every clause of the decoding rule has words, at both ends of each range. -/
theorem witness_DecodeFollowsItsRule :
    (BitVec.extractLsb' 8 24 0x101#32 ≠ 0#24 ∧ BitVec.extractLsb' 8 24 0x80000001#32 ≠ 0#24) ∧
      (BitVec.extractLsb' 8 24 0x91#32 = 0#24 ∧ BitVec.extractLsb' 0 4 0x91#32 = 1#4 ∧
        (BitVec.extractLsb' 5 3 0x91#32).toNat ≤ 4) ∧
      (BitVec.extractLsb' 8 24 0xA1#32 = 0#24 ∧ BitVec.extractLsb' 0 4 0xA1#32 = 1#4 ∧
        4 < (BitVec.extractLsb' 5 3 0xA1#32).toNat) ∧
      (BitVec.extractLsb' 0 4 0x12#32 = 2#4 ∧ BitVec.extractLsb' 4 4 0x12#32 ≠ 0#4) ∧
      (BitVec.extractLsb' 0 4 0x03#32 = 3#4 ∧ BitVec.extractLsb' 4 4 0x03#32 = 0#4) ∧
      (BitVec.extractLsb' 8 24 0x4#32 = 0#24 ∧ BitVec.extractLsb' 0 4 0x4#32 ≠ 1#4 ∧ BitVec.extractLsb' 0 4 0x4#32 ≠ 2#4 ∧
        BitVec.extractLsb' 0 4 0x4#32 ≠ 3#4) ∧
      (hosted (.write 0 0x4#32)).seq = none ∧ (hosted (.write 0 0x4#32)).host = HostOp.write 0 0x4#32 :: [] := by decide

theorem witness_ReservedModeWordsComplete :
    (hosted (.write 0 0xF1#32)).seq = none ∧ (hosted (.write 0 0xF1#32)).host = HostOp.write 0 0xF1#32 :: [] ∧
      decode 0xF1#32 = .reservedMode := by decide

theorem witness_IllegalWordsComplete :
    (hosted (.write 0 0x1A1#32)).seq = none ∧ (hosted (.write 0 0x1A1#32)).host = HostOp.write 0 0x1A1#32 :: [] ∧
      decode 0x1A1#32 = .illegal := by decide

theorem witness_DecodeAndEncodeAgree :
    Instr.wellFormed (.constructCtr .decrypt) = true ∧ decode 0x91#32 = .instr (.constructCtr .decrypt) := by decide

/-- The premises of the four CONSTRUCTs with an IV: a wrong length just below and above 16, and a readable IV at both ends of the
address space. -/
theorem witness_ConstructWithIvCompletes :
    (ivState 15#32).arg1 ≠ 16#32 ∧ (ivState 17#32).arg1 ≠ 16#32 ∧ IvOk (ivState 16#32) ∧
      IvOk { ivState 16#32 with arg0 := 0#32 } ∧ IvOk { ivState 16#32 with arg0 := 0xFFFFFFF0#32 } := by decide

/-- A platform with a device window at `0x2010`, and no plain window but one. -/
def deviceMap : List Region := [⟨0, 0x10000, true, true, false⟩, ⟨0x2010, 1, true, true, true⟩]

theorem witness_ConstructStopsOnItsIvRange :
    Instr.constructOfb .encrypt ∈
        [Instr.constructCbc .encrypt, Instr.constructCfb .encrypt, Instr.constructOfb .encrypt,
          Instr.constructCtr .encrypt] ∧
      (ivState 16#32).arg1 = 16#32 ∧
      2 ^ 32 < ivAddr { ivState 16#32 with arg0 := 0xFFFFFFF1#32 } + 16 ∧
      (ivAddr { ivState 16#32 with arg0 := 0x2001#32 } + 16 ≤ 2 ^ 32 ∧ touchesDevice deviceMap 0x2001 16 = true) ∧
      (ivAddr { ivState 16#32 with arg0 := 0xFFFF#32 } + 16 ≤ 2 ^ 32 ∧ touchesDevice deviceMap 0xFFFF 16 = false ∧
        admits deviceMap 0xFFFF 16 .read = false) := by decide

theorem witness_CryptChecksInOrder :
    statusState State.reset.status ≠ 1#2 ∧
      (statusState (ready .cbc .encrypt).status = 1#2 ∧ BitVec.toNat 17#32 % 16 ≠ 0) ∧
      (statusState (ready .ecb .decrypt).status = 1#2 ∧ BitVec.toNat 32#32 % 16 = 0 ∧
        BitVec.toNat 31#32 < BitVec.toNat 32#32) := by decide

theorem witness_CryptOfLengthZero :
    statusState { ready .cbc .encrypt with arg0 := 0xFFFFFFFF#32, arg1 := 0#32, arg3 := 0#32 }.status = 1#2 ∧
      { ready .cbc .encrypt with arg0 := 0xFFFFFFFF#32, arg1 := 0#32, arg3 := 0#32 }.arg3 = 0#32 := by decide

/-- The premises on one block: CHAIN and EXT hold a value or none, memory is in canonical form, and a destination just before, at and
just after the source. -/
theorem witness_OneBlock :
    (ready .cbc .encrypt).chain = some iv ∧ (ready (.ext .cfb) .encrypt).ext = some [] ∧ (ready .cbc .encrypt).mem.wf ∧
      State.reset.chain = none ∧ State.reset.ext = none ∧ State.reset.mem.wf ∧
      (0x1FF0 + 16 ≤ 0x2000 ∧ 0x2000 + 16 ≤ 0x2010 ∧ 0x2000 = 0x2000) := by decide

/-- A CBC CRYPT that runs, disjoint to encrypt and in place to decrypt. -/
theorem witness_CryptCbcCompletes :
    (CryptRuns (ready .cbc .encrypt) ∧ cfgMode (ready .cbc .encrypt).cfg = some .cbc ∧
        cfgDir (ready .cbc .encrypt).cfg = .encrypt ∧ (ready .cbc .encrypt).chain = some iv) ∧
      CryptRuns (readyInPlace .cbc .decrypt) ∧ cfgMode (readyInPlace .cbc .decrypt).cfg = some .cbc ∧
        cfgDir (readyInPlace .cbc .decrypt).cfg = .decrypt ∧ (readyInPlace .cbc .decrypt).chain = some iv := by decide

/-- An ECB CRYPT into the range right after its source, and one of length 0. -/
theorem witness_CryptEcbCompletes :
    (CryptRuns { ready .ecb .decrypt with arg0 := 0x2020#32 } ∧
        cfgMode { ready .ecb .decrypt with arg0 := 0x2020#32 }.cfg = some .ecb) ∧
      CryptRuns { ready .ecb .encrypt with arg0 := 0xFFFFFFFF#32, arg3 := 0#32 } := by decide

theorem witness_CryptExtCompletes :
    CryptRuns (ready (.ext .ctr) .decrypt) ∧ cfgMode (ready (.ext .ctr) .decrypt).cfg = some (.ext .ctr) ∧
      (ready (.ext .ctr) .decrypt).ext = some [] ∧ srcLen (ready (.ext .ctr) .decrypt) ≠ 0 := by decide

/-- In READY, with CHAIN set, a CBC CRYPT of two blocks answers a next state with a memory in canonical form. -/
theorem cbc_runs (d : Direction) :
    ∃ t, exec .crypt (ready .cbc d) = .next t ∧ t.mem.wf := by
  have hr : CryptRuns (ready .cbc d) := by cases d <;> decide
  refine ⟨_, (exec_crypt _).trans (cryptWith_of_runs (m := .cbc) hr (cfgMode_cfgWord ..)), ?_⟩
  rw [State.finish_mem, State.withHid_mem]
  exact Memory.wf_writeBytes hr.2.2 _ _

theorem witness_CryptFrame : ∃ t, (ready .cbc .encrypt).mem.wf ∧ exec .crypt (ready .cbc .encrypt) = .next t := by
  obtain ⟨t, h, _⟩ := cbc_runs .encrypt
  exact ⟨t, by decide, h⟩

/-- The premise of the statements about any command that answers a next state. -/
theorem witness_ExecAnswersNext :
    (∃ t, exec (.constructCbc .encrypt) (ivState 16#32) = .next t) ∧ (∃ t, exec .blksize State.reset = .next t) ∧
      (∃ t, exec .crypt State.reset = .next t) ∧ ∃ t, exec .crypt (ready .cbc .decrypt) = .next t :=
  ⟨⟨_, rfl⟩, ⟨_, rfl⟩, ⟨_, rfl⟩, (cbc_runs .decrypt).imp fun _ h => h.1⟩

/-- The premise of the statements about any word that answers a next state: a command, a reserved mode, an illegal word. -/
theorem witness_RunWordAnswersNext :
    (∃ t, runWord 0x11#32 State.reset = .next t) ∧ (∃ t, runWord 0xA1#32 State.reset = .next t) ∧
      ∃ t, runWord 0x0#32 State.reset = .next t := ⟨⟨_, rfl⟩, ⟨_, rfl⟩, ⟨_, rfl⟩⟩

theorem witness_FailureIsAtomic :
    ∃ t, runWord 0x3#32 { ready .cbc .encrypt with arg3 := 17#32 } = .next t ∧ statusCode t.status ≠ 0#4 :=
  ⟨_, rfl, by decide⟩

theorem witness_StickyIsClearedOnlyByReset :
    ∃ t, step { hosted .reset with status := 0x64#32 } = .next t ∧ statusSticky 0x64#32 = 1#1 ∧
      statusSticky t.status ≠ 1#1 := ⟨_, rfl, by decide, by decide⟩

/-- Every clause of the stops of CRYPT has a state: a range one byte too far, an overlap of all but one byte and of one byte, a
device inside, a range one byte outside the platform's window. -/
theorem witness_CryptStopsOnItsRanges :
    (CryptChecksPass (ready .cbc .encrypt) ∧ srcLen (ready .cbc .encrypt) ≠ 0) ∧
      2 ^ 32 < srcAddr { ready .cbc .encrypt with arg2 := 0xFFFFFFE1#32 } + 32 ∧
      2 ^ 32 < dstAddr { ready .cbc .encrypt with arg0 := 0xFFFFFFE1#32 } + 32 ∧
      inexactOverlap 0x2001 0x2000 32 = true ∧ inexactOverlap 0x1FE1 0x2000 32 = true ∧
      (inexactOverlap 0x2020 0x2000 32 = false ∧ touchesDevice deviceMap 0x2000 32 = true) ∧
      (touchesDevice deviceMap 0xFFE1 32 = false ∧ admits deviceMap 0xFFE1 32 .read = false) ∧
      (touchesDevice deviceMap 0x3000 32 = false ∧ admits deviceMap 0x3000 32 .read = true ∧
        touchesDevice deviceMap 0x2000 32 = true) ∧
      (touchesDevice deviceMap 0x3000 32 = false ∧ admits deviceMap 0x3000 32 .read = true ∧
        touchesDevice deviceMap 0xFFE1 32 = false ∧ admits deviceMap 0xFFE1 32 .write = false) := by decide

theorem witness_InPlaceEqualsDisjoint :
    ∃ t, CryptRuns (readyInPlace .cbc .decrypt) ∧ CryptRuns (ready .cbc .decrypt) ∧
      dstAddr (readyInPlace .cbc .decrypt) = srcAddr (readyInPlace .cbc .decrypt) ∧
      disjoint (dstAddr (ready .cbc .decrypt)) (srcAddr (ready .cbc .decrypt)) (srcLen (ready .cbc .decrypt)) = true ∧
      srcBlocks (ready .cbc .decrypt) = srcBlocks (readyInPlace .cbc .decrypt) ∧
      exec .crypt (readyInPlace .cbc .decrypt) = .next t := by
  have hr : CryptRuns (readyInPlace .cbc .decrypt) := by decide
  exact ⟨_, hr, by decide, by decide, by decide, rfl,
    (exec_crypt _).trans (cryptWith_of_runs (m := .cbc) hr (by decide))⟩

theorem witness_ChainHoldsLastCiphertext :
    ∃ t, CryptRuns (ready .cbc .encrypt) ∧ cfgMode (ready .cbc .encrypt).cfg = some .cbc ∧
      blockCount (ready .cbc .encrypt) = 1 + 1 ∧ exec .crypt (ready .cbc .encrypt) = .next t := by
  obtain ⟨t, h, _⟩ := cbc_runs .encrypt
  exact ⟨t, by decide, by decide, by decide, h⟩

/-- The source of the second instance is what the first wrote, in place at `0x3000`. -/
theorem witness_CbcRoundTrip :
    ∃ t u, exec .crypt (ready .cbc .encrypt) = .next t ∧ CryptRuns (ready .cbc .encrypt) ∧ CryptRuns u ∧
      cfgMode u.cfg = some .cbc ∧ cfgDir u.cfg = .decrypt ∧ u.chain = some iv ∧
      srcBlocks u = dstBlocks (ready .cbc .encrypt) t := by
  obtain ⟨t, h, hw⟩ := cbc_runs .encrypt
  have hp : CryptChecksPass { ready .cbc .decrypt with arg2 := 0x3000#32 } := by decide
  have hr : CryptRangesOk { ready .cbc .decrypt with arg2 := 0x3000#32 } := by decide
  exact ⟨t, { ready .cbc .decrypt with arg2 := 0x3000#32, mem := t.mem }, h, by decide, ⟨hp, hr, hw⟩,
    cfgMode_cfgWord .., cfgDir_cfgWord .., rfl, rfl⟩

/-- Two sources that differ in one block, the first and the last, under one CHAIN. -/
theorem witness_Propagation (d : Direction) :
    CryptRuns (ready .cbc d) ∧ CryptRuns { ready .cbc d with mem := twoBlocks c2 c1 } ∧
      CryptRuns { ready .cbc d with mem := twoBlocks aa c2 } ∧ (ready .cbc d).chain = some iv ∧
      blockCount (ready .cbc d) = 2 ∧ srcBlocks (ready .cbc d) = [aa, c1] ∧
      srcBlocks { ready .cbc d with mem := twoBlocks c2 c1 } = [c2, c1] ∧
      srcBlocks { ready .cbc d with mem := twoBlocks aa c2 } = [aa, c2] ∧ aa ≠ c2 ∧ c1 ≠ c2 := by
  cases d <;> decide

theorem witness_SplittingAStream :
    ∃ t, CryptRuns (ready .cbc .encrypt) ∧ 1 + 1 = blockCount (ready .cbc .encrypt) ∧
      exec .crypt (ready .cbc .encrypt) = .next t := by
  obtain ⟨t, h, _⟩ := cbc_runs .encrypt
  exact ⟨t, by decide, by decide, h⟩

/-- Equal blocks within one CRYPT, at different indexes. -/
theorem witness_EcbHasNoMemory :
    CryptRuns { ready .ecb .encrypt with mem := twoBlocks aa aa } ∧
      cfgMode { ready .ecb .encrypt with mem := twoBlocks aa aa }.cfg = some .ecb ∧
      (srcBlocks { ready .ecb .encrypt with mem := twoBlocks aa aa })[0]? =
        (srcBlocks { ready .ecb .encrypt with mem := twoBlocks aa aa })[1]? := by decide

/-- EXT as a CONSTRUCT from the IV leaves it. -/
def readyExt (k : ExtMode) (d : Direction) : State :=
  { ready (.ext k) d with ext := some (Config.given.extInit k Config.given.enc Config.given.dec d iv) }

theorem witness_CfbRoundTrip :
    ∃ t u, exec .crypt (readyExt .cfb .encrypt) = .next t ∧ CryptRuns (readyExt .cfb .encrypt) ∧
      srcLen (readyExt .cfb .encrypt) ≠ 0 ∧ CryptRuns u ∧ cfgMode u.cfg = some (.ext .cfb) ∧
      u.ext = some (Config.given.extInit .cfb Config.given.enc Config.given.dec .decrypt iv) ∧
      srcBlocks u = dstBlocks (readyExt .cfb .encrypt) t := by
  have h0 : CryptRuns (ready (.ext .cfb) .encrypt) := by decide
  have hr : CryptRuns (readyExt .cfb .encrypt) := ⟨h0.1, h0.2.1, h0.2.2⟩
  have ht := cryptWith_of_runs (c := Config.given.toCollaborators) (m := .ext .cfb) hr (by decide)
  have hp : CryptChecksPass { ready (.ext .cfb) .decrypt with arg2 := 0x3000#32 } := by decide
  have hq : CryptRangesOk { ready (.ext .cfb) .decrypt with arg2 := 0x3000#32 } := by decide
  exact ⟨_, { readyExt .cfb .decrypt with arg2 := 0x3000#32, mem := _ }, ht, hr, by decide,
    ⟨hp, hq, Memory.wf_writeBytes hr.2.2 _ _⟩, cfgMode_cfgWord .., rfl, rfl⟩

theorem witness_OfbAndCtrIgnoreDirection :
    (∃ t, exec (constructInstr (.ext .ofb) .encrypt) (ivState 16#32) = .next t) ∧ IvOk (ivState 16#32) ∧
      (ready (.ext .ctr) .encrypt).cfg = cfgWord (.ext .ctr) .encrypt ∧
      ∃ t, exec .crypt { ready (.ext .ctr) .encrypt with arg3 := 0#32 } = .next t :=
  ⟨⟨_, rfl⟩, by decide, rfl, ⟨_, rfl⟩⟩

/-- The second instance in the other direction, over what the first wrote. -/
theorem witness_OfbRoundTrip :
    ∃ t u, exec .crypt (readyExt .ofb .encrypt) = .next t ∧ CryptRuns (readyExt .ofb .encrypt) ∧
      srcLen (readyExt .ofb .encrypt) ≠ 0 ∧ CryptRuns u ∧ cfgMode u.cfg = some (.ext .ofb) ∧
      u.ext = some (Config.given.extInit .ofb Config.given.enc Config.given.dec .decrypt iv) ∧
      srcBlocks u = dstBlocks (readyExt .ofb .encrypt) t := by
  have h0 : CryptRuns (ready (.ext .ofb) .encrypt) := by decide
  have hr : CryptRuns (readyExt .ofb .encrypt) := ⟨h0.1, h0.2.1, h0.2.2⟩
  have ht := cryptWith_of_runs (c := Config.given.toCollaborators) (m := .ext .ofb) hr (by decide)
  have hp : CryptChecksPass { ready (.ext .ofb) .decrypt with arg2 := 0x3000#32 } := by decide
  have hq : CryptRangesOk { ready (.ext .ofb) .decrypt with arg2 := 0x3000#32 } := by decide
  exact ⟨_, { readyExt .ofb .decrypt with arg2 := 0x3000#32, mem := _ }, ht, hr, by decide,
    ⟨hp, hq, Memory.wf_writeBytes hr.2.2 _ _⟩, cfgMode_cfgWord .., rfl, rfl⟩

theorem witness_LeftoversDoNotMatter :
    (ready .cbc .decrypt).mem.wf ∧ (∃ t, exec .crypt (ready .cbc .decrypt) = .next t) ∧
      cfgMode (ready .cbc .decrypt).cfg = some .cbc ∧ cfgMode (ready .ecb .encrypt).cfg = some .ecb ∧
      cfgMode (ready (.ext .ofb) .encrypt).cfg = some (.ext .ofb) :=
  ⟨by decide, (cbc_runs .decrypt).imp fun _ h => h.1, by decide, by decide, by decide⟩

/-- Both ends of the register numbers, and the first that names no register. -/
theorem witness_HostRegisterMap :
    (hosted (.write 7 5#32)).seq = none ∧ (hosted (.write 7 5#32)).host = HostOp.write 7 5#32 :: [] ∧
      (hosted (.write 8 5#32)).host = HostOp.write 8 5#32 :: [] ∧ (hosted (.read 0)).host = HostOp.read 0 :: [] ∧
      (hosted (.read 8)).host = HostOp.read 8 :: [] := by decide

/-- 10_state.md R22: a read of CMD gives 0, a write of STATUS is ignored, a write of ARG3 is kept. -/
theorem test_host_registers :
    after (step (hosted (.read 0))) (fun t => t.returned = [.reg 0 0#32]) = true ∧
      after (step (hosted (.write 1 5#32))) (fun t => t.status = 0#32) = true ∧
      after (step (hosted (.write 7 5#32))) (fun t => t.arg3 = 5#32) = true := by decide

theorem witness_HostMemoryIsPlainStorage :
    { State.reset with host := [.store 0xFFFFFFFF#32 7#8, .load 0#32] }.seq = none ∧
      { State.reset with host := [.store 0xFFFFFFFF#32 7#8, .load 0#32] }.mem.wf ∧
      { State.reset with host := [.store 0xFFFFFFFF#32 7#8, .load 0#32] }.host =
        HostOp.store 0xFFFFFFFF#32 7#8 :: HostOp.load 0#32 :: [] := by decide

theorem witness_PlatformMapIsConstant : ∃ t, step (hosted (.write 0 0x2#32)) = .next t := ⟨_, rfl⟩

theorem witness_PhasesRefineTheCommand :
    { ready .cbc .encrypt with host := [.walk 0x3#32] }.seq = none ∧
      { ready .cbc .encrypt with host := [.walk 0x3#32] }.host = HostOp.walk 0x3#32 :: [] := by decide

/-- R81, R31: an accepted CRYPT is BUSY in phase CHECK, then in XOR of block 0; the host's next operation waits. -/
theorem test_phases_start :
    after (core.run 2 { ready .cbc .encrypt with host := [.walk 0x3#32, .read 1] })
      (fun t =>
        t.status = 0x02#32 && t.seq = some { phase := .xor, s0 := 1#2, i := 0, j := 0 } && t.host = [.read 1]) = true := by
  decide

/-- An external reset after the 17th byte of a CRYPT of two blocks. -/
theorem witness_ResetDuringACommand :
    ∃ u, { ready .cbc .encrypt with host := [.resetDuring 0x3#32 17] }.seq = none ∧
      { ready .cbc .encrypt with host := [.resetDuring 0x3#32 17] }.host = HostOp.resetDuring 0x3#32 17 :: [] ∧
      (ready .cbc .encrypt).mem.wf ∧ runWord 0x3#32 { ready .cbc .encrypt with host := [] } = .next u ∧
      decode 0x3#32 = .instr .crypt ∧ CryptChecksPass (ready .cbc .encrypt) ∧
      ¬ (decode 0x2#32 = .instr .crypt ∧ CryptChecksPass (ready .cbc .encrypt)) := by
  obtain ⟨u, h, _⟩ := cbc_runs .encrypt
  exact ⟨u, by decide, by decide, by decide, h, by decide, by decide, by decide⟩

/-- In the last byte of the last block of a decrypting CRYPT. -/
def midCrypt : State :=
  { ready .cbc .decrypt with
    status := 2#32, work := some iv, seq := some { phase := .xorStore, s0 := 1#2, i := 1, j := 15 } }

theorem midCrypt_inv : Inv midCrypt where
  status := by decide
  cfg := by decide
  result := .inl rfl
  registers := .inr ⟨by decide, by decide, by decide⟩
  seq := ⟨by decide, ⟨by decide, by decide, by decide⟩, by decide, by decide, by decide, by decide⟩
  memWf := by decide
  memInSpace := by decide

theorem witness_StepKeepsTheInvariant : ∃ t, Inv midCrypt ∧ step midCrypt = .next t := ⟨_, midCrypt_inv, rfl⟩

theorem witness_NoEmptyRegisterIsRead :
    ∃ c : Collaborators, Inv midCrypt ∧
      c = { Config.given.toCollaborators with unwrittenChain := aa, unwrittenWork := c1, unwrittenExt := [] } :=
  ⟨_, midCrypt_inv, rfl⟩

end Sys2Proof.Tests
end

section
/-! SUPPORT. What the engine's own moves leave alone: a block operation, the blocks of a CRYPT and a phase (10_state.md R14, R15, R20,
R25). -/

namespace Sys2Proof.Machine

/-! ### Fields that a change of hidden registers and memory keeps -/

theorem HidOnly.cfg {s t : State} (h : HidOnly s t) : t.cfg = s.cfg := (congrArg State.cfg h :)
theorem HidOnly.status {s t : State} (h : HidOnly s t) : t.status = s.status := (congrArg State.status h :)
theorem HidOnly.result {s t : State} (h : HidOnly s t) : t.result = s.result := (congrArg State.result h :)
theorem HidOnly.seq {s t : State} (h : HidOnly s t) : t.seq = s.seq := (congrArg State.seq h :)
theorem HidOnly.regions {s t : State} (h : HidOnly s t) : t.regions = s.regions := (congrArg State.regions h :)
theorem HidOnly.dstBlockAddr {s t : State} (h : HidOnly s t) (i : Nat) : dstBlockAddr t i = dstBlockAddr s i :=
  (congrArg (Machine.dstBlockAddr · i) h :)
theorem HidOnly.liveState {s t : State} (h : HidOnly s t) : liveState t = liveState s := (congrArg Machine.liveState h :)

/-! ### What every block operation does -/

/-- How a block operation leads from `s` to `t`: it changes hidden registers and memory only, no register that holds a value loses it,
and memory keeps its form, inside the address space if the addresses below `top` are. -/
structure Advances (top : Nat) (s t : State) : Prop where
  hidOnly : HidOnly s t
  chain : s.chain.isSome = true → t.chain.isSome = true
  work : s.work.isSome = true → t.work.isSome = true
  ext : s.ext.isSome = true → t.ext.isSome = true
  memWf : s.mem.wf → t.mem.wf
  memInSpace : top ≤ 2 ^ Config.AW → s.mem.inSpace → t.mem.inSpace

theorem Advances.refl (top : Nat) (s : State) : Advances top s s := ⟨rfl, id, id, id, id, fun _ => id⟩

theorem Advances.trans {top : Nat} {s t u : State} (h1 : Advances top s t) (h2 : Advances top t u) : Advances top s u where
  hidOnly := h1.hidOnly.trans h2.hidOnly
  chain := h2.chain ∘ h1.chain
  work := h2.work ∘ h1.work
  ext := h2.ext ∘ h1.ext
  memWf := h2.memWf ∘ h1.memWf
  memInSpace ht := h2.memInSpace ht ∘ h1.memInSpace ht

theorem Advances.mono {top top' : Nat} {s t : State} (h : Advances top s t) (hle : top ≤ top') : Advances top' s t :=
  { h with memInSpace := fun ht => h.memInSpace (hle.trans ht) }

/-- New values in the hidden registers, and nothing stored. -/
theorem advances_registers (top : Nat) (s : State) {ch wk : Option Block} {e : Option ExtState}
    (hc : s.chain.isSome = true → ch.isSome = true) (hw : s.work.isSome = true → wk.isSome = true)
    (he : s.ext.isSome = true → e.isSome = true) : Advances top s { s with chain := ch, work := wk, ext := e } :=
  ⟨rfl, hc, hw, he, id, fun _ => id⟩

/-- New values in the hidden registers, and a block stored. -/
theorem advances_writeBlock (s : State) (d : Nat) (x : Block) {ch wk : Option Block} {e : Option ExtState}
    (hc : s.chain.isSome = true → ch.isSome = true) (hw : s.work.isSome = true → wk.isSome = true)
    (he : s.ext.isSome = true → e.isSome = true) :
    Advances (d + Config.B) s { s with chain := ch, work := wk, ext := e, mem := s.mem.writeBlock d x } :=
  ⟨rfl, hc, hw, he, fun h => Memory.wf_writeBlock h d x, fun ht h => Memory.inSpace_writeBlock h x ht⟩

/-- A byte of CBC.DEC always has a next state (41_cbc_block_ops.md R76). -/
theorem cbcDecByte_answers (c : Collaborators) (d a j : Nat) (s : State) : ∃ t, cbcDecByte c d a j s = .next t := by
  by_cases hj : j < Config.B
  · exact ⟨_, cbcDecByte_eq hj⟩
  · exact ⟨s, dif_neg hj⟩

theorem cbcDecByte_advances {c : Collaborators} {d a j : Nat} {s t : State} (h : cbcDecByte c d a j s = .next t) :
    Advances (d + (j + 1)) s t := by
  by_cases hj : j < Config.B
  · rw [cbcDecByte_eq hj] at h
    cases h
    exact ⟨rfl, fun _ => rfl, id, id, fun h => Memory.wf_write h _ _, fun ht h => Memory.inSpace_write h ht _⟩
  · rw [cbcDecByte, dif_neg hj] at h
    cases h
    exact .refl _ _

theorem cbcDecBytes_answers (c : Collaborators) (d a n : Nat) (s : State) : ∃ t, cbcDecBytes c d a n s = .next t := by
  induction n with
  | zero => exact ⟨s, rfl⟩
  | succ n ih =>
    obtain ⟨u, hu⟩ := ih
    obtain ⟨t, ht⟩ := cbcDecByte_answers c d a n u
    exact ⟨t, andThen_eq_next.2 ⟨u, hu, ht⟩⟩

theorem cbcDecBytes_advances {c : Collaborators} {d a n : Nat} {s t : State} (h : cbcDecBytes c d a n s = .next t) :
    Advances (d + n) s t := by
  induction n generalizing t with
  | zero => cases h; exact .refl _ _
  | succ n ih =>
    obtain ⟨u, hu, ht⟩ := andThen_eq_next.1 h
    exact ((ih hu).mono (by omega)).trans (cbcDecByte_advances ht)

/-- In a mode that a rule produces a block operation always has a next state. -/
theorem blockOp_answers (c : Collaborators) (d a : Nat) {s : State} (hm : cfgMode s.cfg ≠ none) :
    ∃ t, blockOp c d a s = .next t := by
  unfold blockOp
  split
  · exact ⟨_, cbcEnc_eq c d a s⟩
  · exact cbcDecBytes_answers c d a Config.B _
  · exact ⟨_, rfl⟩
  · exact ⟨_, rfl⟩
  · exact ⟨_, extBlock_eq c _ d a s⟩
  · exact absurd ‹_› hm

theorem blockOp_advances {c : Collaborators} {d a : Nat} {s t : State} (h : blockOp c d a s = .next t) :
    Advances (d + Config.B) s t := by
  unfold blockOp at h
  split at h
  · rw [cbcEnc_eq] at h
    cases h
    exact advances_writeBlock s d _ (fun _ => rfl) (fun _ => rfl) id
  · rw [cbcDec, cbcDecCipher, andThen_next] at h
    exact (advances_registers _ s id (fun _ => rfl) id).trans (cbcDecBytes_advances h)
  · cases h; exact advances_writeBlock s d _ id id id
  · cases h; exact advances_writeBlock s d _ id id id
  · rw [extBlock_eq] at h
    cases h
    exact advances_writeBlock s d _ id id (fun _ => rfl)
  · cases h

theorem cryptBlocks_answers (c : Collaborators) (n : Nat) {s : State} (hm : cfgMode s.cfg ≠ none) :
    ∃ t, cryptBlocks c n s = .next t := by
  induction n with
  | zero => exact ⟨s, rfl⟩
  | succ n ih =>
    obtain ⟨u, hu⟩ := ih
    have hcfg : u.cfg = s.cfg := (cryptBlocks_hidOnly hu).1.cfg
    obtain ⟨t, ht⟩ := blockOp_answers c (dstBlockAddr u n) (srcBlockAddr u n) (hcfg ▸ hm)
    exact ⟨t, andThen_eq_next.2 ⟨u, hu, ht⟩⟩

theorem cryptBlocks_advances {c : Collaborators} {n : Nat} {s t : State} (h : cryptBlocks c n s = .next t) :
    Advances (dstBlockAddr s n) s t := by
  induction n generalizing t with
  | zero => cases h; exact .refl _ _
  | succ n ih =>
    obtain ⟨u, hu, ht⟩ := andThen_eq_next.1 h
    have hd : dstBlockAddr u n + Config.B = dstBlockAddr s (n + 1) := by
      rw [(ih hu).hidOnly.dstBlockAddr, dstBlockAddr, dstBlockAddr, Nat.succ_mul, Nat.add_assoc]
    have hle : dstBlockAddr s n ≤ dstBlockAddr s (n + 1) := by
      rw [← hd, (ih hu).hidOnly.dstBlockAddr]; exact Nat.le_add_right _ _
    exact ((ih hu).mono hle).trans (hd ▸ blockOp_advances ht)

/-! ### What every phase does -/

/-- The destination of a block in the middle of a CRYPT lies in the address space. -/
theorem InBlock.dst_inSpace {s : State} {q : Seq} (h : InBlock s q) : dstBlockAddr s q.i + Config.B ≤ 2 ^ Config.AW := by
  obtain ⟨-, hi, hd⟩ := h
  have hB : (q.i + 1) * Config.B ≤ srcLen s := (Nat.mul_le_mul_right _ hi).trans (Nat.div_mul_le_self _ _)
  rw [Nat.succ_mul] at hB
  unfold dstBlockAddr
  omega

theorem CryptRangesOk.dst_inSpace {s : State} (h : CryptRangesOk s) : dstAddr s + srcLen s ≤ 2 ^ Config.AW := by
  obtain h0 | ⟨-, ⟨hd, -⟩, -⟩ := h
  · rw [h0]; exact s.arg0.isLt.le
  · exact hd

theorem HidOnly.inBlock {s t : State} (h : HidOnly s t) (q : Seq) : InBlock t q ↔ InBlock s q :=
  iff_of_eq (congrArg (Machine.InBlock · q) h :)

/-- The first phase of a block belongs to the mode and the direction (41_cbc_block_ops.md R81). -/
theorem phaseOk_firstPhase {s : State} {q : Seq} (h : InBlock s q) : phaseOk s { q with phase := firstPhase s } := by
  unfold firstPhase
  split
  next hm hd => exact ⟨h, hm, hd⟩
  next hm hd => exact ⟨h, hm, fun he => absurd (hd.symm.trans he) (by decide)⟩
  next hm => exact ⟨h, by simp [hm]⟩
  next hm => exact ⟨h, by simp [hm]⟩
  next hm => exact ⟨h, by simp [hm]⟩

/-- All a phase can do: DONE ends the CRYPT; another phase only enters the next one, or does its work on a block and enters the next
one. Where the phase is in its place, so is the next, and the work is on a block of the CRYPT (41_cbc_block_ops.md R81). -/
inductive PhaseEffect (q : Seq) (s : State) : State → Prop
  | ends {code : Code} (phase : q.phase = .done code) : PhaseEffect q s (State.complete code q.s0 { s with seq := none })
  | moves {q' : Seq} (s0 : q'.s0 = q.s0) (ok : phaseOk s q → phaseOk s q') : PhaseEffect q s { s with seq := some q' }
  | works {top : Nat} {u : State} {q' : Seq} (advances : Advances top s u) (s0 : q'.s0 = q.s0)
    (ok : phaseOk s q → InBlock s q ∧ top ≤ 2 ^ Config.AW ∧ phaseOk u q') : PhaseEffect q s { u with seq := some q' }

/-- CHECK enters DONE with the code of a failing check or of an empty CRYPT, else the first phase of block 0. -/
theorem phaseCheck_effect {q : Seq} {s t : State} (h : phaseCheck q s = .next t) : PhaseEffect q s t := by
  unfold phaseCheck at h
  split at h
  next => cases h; exact .moves rfl fun _ => trivial
  next hc =>
    obtain ⟨hr, h⟩ := withCryptRanges_eq_next.1 h
    split at h <;> cases h
    next => exact .moves rfl fun _ => trivial
    next hn =>
      have hb : InBlock s { q with i := 0 } := ⟨(cryptCheck_eq_none.1 hc).1, Nat.pos_of_ne_zero hn, hr.dst_inSpace⟩
      exact .moves rfl fun _ => phaseOk_firstPhase hb

theorem phaseCipher_effect {c : Collaborators} {q : Seq} {s t : State} (hp : q.phase = .cipher)
    (h : phaseCipher c q s = .next t) : PhaseEffect q s t := by
  have hok : phaseOk s q → InBlock s q ∧ cfgMode s.cfg = some .cbc := by
    simp only [phaseOk, hp]; exact fun ⟨hb, hm, _⟩ => ⟨hb, hm⟩
  unfold phaseCipher at h
  split at h <;> cases h
  next hd =>
    exact .works (advances_registers 0 s (fun _ => rfl) id id) rfl fun h => ⟨(hok h).1, by simp, (hok h).1, (hok h).2, hd⟩
  next hd =>
    exact .works (advances_registers 0 s id (fun _ => rfl) id) rfl fun h =>
      ⟨(hok h).1, by simp, (hok h).1, (hok h).2, hd, rfl, by simp⟩

theorem phaseXorStore_effect {c : Collaborators} {q : Seq} {s t : State} (hp : q.phase = .xorStore)
    (h : phaseXorStore c q s = .next t) : PhaseEffect q s t := by
  obtain ⟨u, hu, h⟩ := andThen_eq_next.1 h
  cases h
  have ha := cbcDecByte_advances hu
  refine .works ha rfl fun hq => ?_
  simp only [phaseOk, hp] at hq
  obtain ⟨hb, hm, hd, hw, hj⟩ := hq
  have hb' : InBlock u q := (ha.hidOnly.inBlock q).2 hb
  have htop := hb.dst_inSpace
  refine ⟨hb, by omega, ?_⟩
  split
  next hlt => exact ⟨hb', ha.hidOnly.cfg ▸ hm, ha.hidOnly.cfg ▸ hd, ha.work hw, hlt⟩
  next => exact hb'

theorem phaseNext_effect {q : Seq} {s t : State} (hp : q.phase = .next) (h : phaseNext q s = .next t) :
    PhaseEffect q s t := by
  cases h
  refine .moves rfl fun h => ?_
  simp only [phaseOk, hp] at h
  obtain ⟨hr, -, hd⟩ := h
  split
  next hi => exact phaseOk_firstPhase (q := { q with i := q.i + 1 }) ⟨hr, hi, hd⟩
  next => trivial

theorem phaseStep_effect {c : Collaborators} {q : Seq} {s t : State} (h : phaseStep c q s = .next t) :
    PhaseEffect q s t := by
  cases hp : q.phase <;> simp only [phaseStep, hp] at h
  case check => exact phaseCheck_effect h
  case xor =>
    cases h
    refine .works (advances_registers 0 s id (fun _ => rfl) id) rfl fun h => ?_
    simp only [phaseOk, hp] at h
    obtain ⟨hb, hm, -⟩ := h
    exact ⟨hb, by simp, hb, hm, fun _ => rfl⟩
  case cipher => exact phaseCipher_effect hp h
  case store =>
    cases h
    refine .works (advances_writeBlock s _ _ id id id) rfl fun h => ?_
    simp only [phaseOk, hp] at h
    obtain ⟨hb, -⟩ := h
    exact ⟨hb, hb.dst_inSpace, hb⟩
  case xorStore => exact phaseXorStore_effect hp h
  case block =>
    obtain ⟨u, hu, h⟩ := andThen_eq_next.1 h
    cases h
    have ha := blockOp_advances hu
    refine .works ha rfl fun h => ?_
    simp only [phaseOk, hp] at h
    obtain ⟨hb, -⟩ := h
    exact ⟨hb, hb.dst_inSpace, (ha.hidOnly.inBlock q).2 hb⟩
  case next => exact phaseNext_effect hp h
  case done code => cases h; exact .ends hp

end Sys2Proof.Machine
end

section
/-! SUPPORT. The invariant of the machine (10_state.md R33): what it says between commands and in READY, and what keeps it. -/

namespace Sys2Proof.Machine

/-- The hidden register that the mode of CFG reads holds a value (10_state.md R26, R33). -/
def ModeFilled (s : State) : Prop :=
  (cfgMode s.cfg = some .cbc → s.chain.isSome = true) ∧ ∀ k, cfgMode s.cfg = some (.ext k) → s.ext.isSome = true

/-- In READY the invariant asks of the hidden registers that the mode's own be filled. -/
theorem registersOk_of_ready {s : State} (hr : liveState s = stateReady) : RegistersOk s ↔ ModeFilled s := by
  have hne : ¬ stateReady = stateIdle := by decide
  simp only [RegistersOk, ModeFilled, hr, hne, false_and, false_or, true_and]
  refine and_congr_right fun _ => ⟨fun h k hk => h ?_, fun h hk => ?_⟩
  · cases k <;> simp [hk]
  · obtain hk | hk | hk := hk <;> exact h _ hk

theorem ModeFilled.advance {top : Nat} {s t : State} (h : ModeFilled s) (ha : Advances top s t) : ModeFilled t := by
  rw [ModeFilled, ha.hidOnly.cfg]
  exact ⟨fun hm => ha.chain (h.1 hm), fun k hk => ha.ext (h.2 k hk)⟩

theorem cfgMode_ne_none {w : Word} (h : CfgOk w) : cfgMode w ≠ none := by
  obtain ⟨-, -, hle⟩ := h
  rw [cfgMode, ne_eq, modeOfBits_eq_none]
  exact Nat.not_lt.2 hle

theorem statusOk_statusBusy {w : Word} (h : StatusOk w) : StatusOk (statusBusy w) := by
  obtain ⟨h1, h2, -, h4, h5⟩ := h
  exact ⟨(statusHigh_statusWith ..).trans h1, (statusBit3_statusWith ..).trans h2, by simp [stateBusy], by simpa using h4,
    by simpa using h5⟩

/-! ### What the invariant says of a state -/

/-- Between commands, or before the CRYPT that runs, the engine is in IDLE or READY. -/
theorem Inv.liveState_cases {s : State} (h : Inv s) : liveState s = stateIdle ∨ liveState s = stateReady :=
  h.registers.imp And.left And.left

theorem Inv.modeFilled {s : State} (h : Inv s) (hr : liveState s = stateReady) : ModeFilled s :=
  (registersOk_of_ready hr).1 h.registers

theorem liveState_of_seq_none {s : State} (hq : s.seq = none) : liveState s = statusState s.status := by
  rw [liveState, hq]

theorem liveState_of_seq_some {s : State} {q : Seq} (hq : s.seq = some q) : liveState s = q.s0 := by
  rw [liveState, hq]

theorem Inv.phaseOk {s : State} {q : Seq} (h : Inv s) (hq : s.seq = some q) : phaseOk s q := by
  have := h.seq
  rw [SeqOk, hq] at this
  exact this.2

theorem Inv.status_busy {s : State} {q : Seq} (h : Inv s) (hq : s.seq = some q) : statusState s.status = stateBusy := by
  have := h.seq
  rw [SeqOk, hq] at this
  exact this.1

/-- Between commands SeqOk says that STATE is not BUSY. -/
theorem seqOk_of_seq_none {s : State} (hq : s.seq = none) : SeqOk s ↔ statusState s.status ≠ stateBusy := by
  rw [SeqOk, hq]

theorem seqOk_of_seq_some {s : State} {q : Seq} (hq : s.seq = some q) :
    SeqOk s ↔ statusState s.status = stateBusy ∧ Machine.phaseOk s q := by
  rw [SeqOk, hq]

/-! ### The end of a command, and reset -/

/-- A completion in IDLE or READY keeps the invariant. -/
theorem Inv.complete {s : State} (h : Inv s) (code : Code) :
    Inv (State.complete code (liveState s) { s with seq := none }) where
  status := by
    refine h.status.after code ?_
    obtain hl | hl := h.liveState_cases <;> rw [hl] <;> decide
  cfg := h.cfg
  result := h.result
  registers := by
    have hl : liveState (State.complete code (liveState s) { s with seq := none }) = liveState s := by
      rw [liveState_of_seq_none rfl]; exact statusState_statusAfter ..
    rw [RegistersOk, hl]
    exact h.registers
  seq := by
    rw [seqOk_of_seq_none rfl, State.complete_status, statusState_statusAfter]
    obtain hl | hl := h.liveState_cases <;> rw [hl] <;> decide
  memWf := h.memWf
  memInSpace := h.memInSpace

/-- Between commands the shared end of a command keeps the invariant. -/
theorem Inv.finish {s : State} (h : Inv s) (hq : s.seq = none) (code : Code) : Inv (s.finish code) := by
  have hs : s.finish code = State.complete code (liveState s) { s with seq := none } := by
    rw [State.finish_eq, liveState_of_seq_none hq, ← hq]
  rw [hs]
  exact h.complete code

/-- A successful CONSTRUCT that fills its mode's register keeps the invariant. -/
theorem Inv.construct {s : State} (h : Inv s) (hq : s.seq = none) (m : Mode) (d : Direction) {ch : Option Block}
    {e : Option ExtState} (hc : m = .cbc → ch.isSome = true) (he : ∀ k, m = .ext k → e.isSome = true) :
    Inv (State.construct m d { s with chain := ch, ext := e }) where
  status := h.status.after .ok (by decide)
  cfg := cfgOk_cfgWord m d
  result := h.result
  registers := by
    refine (registersOk_of_ready ?_).2 ⟨?_, fun k => ?_⟩
    · exact (liveState_of_seq_none (by exact hq)).trans (statusState_statusAfter ..)
    · rw [State.construct_cfg, cfgMode_cfgWord, Option.some.injEq]; exact hc
    · rw [State.construct_cfg, cfgMode_cfgWord, Option.some.injEq]; exact he k
  seq := by
    refine (seqOk_of_seq_none (by exact hq)).2 ?_
    rw [State.construct_status, statusState_statusAfter]
    decide
  memWf := h.memWf
  memInSpace := h.memInSpace

/-- After an external reset the invariant holds over any memory in its form. -/
theorem inv_resetEngine {s : State} (hm : s.mem.wf) (hs : s.mem.inSpace) : Inv s.resetEngine where
  status := by rw [State.resetEngine_status]; decide
  cfg := by rw [State.resetEngine_cfg]; decide
  result := .inl rfl
  registers := .inl ⟨rfl, rfl, rfl, rfl, rfl⟩
  seq := by rw [seqOk_of_seq_none (State.resetEngine_seq s), State.resetEngine_status]; decide
  memWf := hm
  memInSpace := hs

/-! ### Blocks and phases -/

theorem phaseOk_advance {top : Nat} {s t : State} {q : Seq} (ha : Advances top s t) (h : phaseOk s q) : phaseOk t q := by
  cases hp : q.phase <;> simp only [phaseOk, hp, ha.hidOnly.inBlock, ha.hidOnly.cfg] at h ⊢
  case cipher =>
    obtain ⟨hb, hm, hw⟩ := h
    exact ⟨hb, hm, fun hd => ha.work (hw hd)⟩
  case xorStore =>
    obtain ⟨hb, hm, hd, hw, hj⟩ := h
    exact ⟨hb, hm, hd, ha.work hw, hj⟩
  all_goals exact h

/-- Work on a block in READY keeps the invariant. -/
theorem Inv.advance {top : Nat} {s t : State} (h : Inv s) (hr : liveState s = stateReady) (ha : Advances top s t)
    (htop : top ≤ 2 ^ Config.AW) : Inv t where
  status := ha.hidOnly.status ▸ h.status
  cfg := ha.hidOnly.cfg ▸ h.cfg
  result := ha.hidOnly.result ▸ h.result
  registers := (registersOk_of_ready (ha.hidOnly.liveState.trans hr)).2 ((h.modeFilled hr).advance ha)
  seq := by
    have hseq := ha.hidOnly.seq
    obtain hq | ⟨q, hq⟩ := Option.eq_none_or_eq_some s.seq
    · rw [seqOk_of_seq_none (hseq.trans hq), ha.hidOnly.status]
      exact (seqOk_of_seq_none hq).1 h.seq
    · rw [seqOk_of_seq_some (hseq.trans hq), ha.hidOnly.status]
      exact ⟨h.status_busy hq, phaseOk_advance ha (h.phaseOk hq)⟩
  memWf := ha.memWf h.memWf
  memInSpace := ha.memInSpace htop h.memInSpace

/-- Entering a phase that is in its place keeps the invariant. -/
theorem Inv.enter {s : State} {q q' : Seq} (h : Inv s) (hq : s.seq = some q) (hs0 : q'.s0 = q.s0)
    (hok : Machine.phaseOk s q') : Inv { s with seq := some q' } where
  status := h.status
  cfg := h.cfg
  result := h.result
  registers := by
    have hl : liveState { s with seq := some q' } = liveState s := by
      rw [liveState_of_seq_some hq]; exact hs0
    rw [RegistersOk, hl]
    exact h.registers
  seq := (seqOk_of_seq_some rfl).2 ⟨h.status_busy hq, hok⟩
  memWf := h.memWf
  memInSpace := h.memInSpace

/-- Every phase of a running CRYPT keeps the invariant. -/
theorem phaseStep_inv {c : Collaborators} {q : Seq} {s t : State} (h : Inv s) (hq : s.seq = some q)
    (ht : phaseStep c q s = .next t) : Inv t := by
  cases phaseStep_effect ht with
  | ends => rw [← liveState_of_seq_some hq]; exact h.complete _
  | moves hs0 ok => exact h.enter hq hs0 (ok (h.phaseOk hq))
  | works ha hs0 ok =>
    obtain ⟨⟨hr, -⟩, htop, hok⟩ := ok (h.phaseOk hq)
    have hu := h.advance ((liveState_of_seq_some hq).trans hr) ha htop
    exact hu.enter (ha.hidOnly.seq.trans hq) hs0 hok

/-! ### Commands -/

/-- A command between commands keeps the invariant. -/
theorem exec_inv {i : Instr} {s t : State} (h : Inv s) (hq : s.seq = none) (ht : exec i s = .next t) : Inv t := by
  obtain ⟨code, -, rfl⟩ | ⟨-, rfl⟩ | ⟨d, -, rfl⟩ | ⟨d, -, -, rfl⟩ | ⟨k, d, -, -, rfl⟩ | ⟨-, hp, hr, u, hu, rfl⟩ := exec_cases ht
  · exact h.finish hq code
  · exact Inv.finish (s := { s with result := BitVec.ofNat 32 Config.B })
      { h with result := .inr rfl, seq := (seqOk_of_seq_none hq).2 ((seqOk_of_seq_none hq).1 h.seq) } hq .ok
  · exact h.construct hq .ecb d nofun nofun
  · exact h.construct hq .cbc d (fun _ => rfl) nofun
  · exact h.construct hq (.ext k) d nofun (fun _ _ => rfl)
  · have ha := cryptBlocks_advances hu
    have htop : dstBlockAddr s (blockCount s) ≤ 2 ^ Config.AW := by
      rw [dstBlockAddr, srcLen_eq_blocks hp]; exact hr.dst_inSpace
    exact (h.advance ((liveState_of_seq_none hq).trans hp.1) ha htop).finish (ha.hidOnly.seq.trans hq) .ok

theorem runWord_inv {w : Word} {s t : State} (h : Inv s) (hq : s.seq = none) (ht : runWord w s = .next t) : Inv t := by
  obtain ⟨i, -, ht⟩ | ⟨-, rfl⟩ | ⟨-, rfl⟩ := runWord_eq_next.1 ht
  · exact exec_inv h hq ht
  · exact h.finish hq _
  · exact h.finish hq _

/-! ### The host -/

/-- A change of what belongs to the host between commands: the ARG registers, memory, its operations and what its reads returned. -/
def HostOnly (s t : State) : Prop :=
  t = { s with
    arg0 := t.arg0, arg1 := t.arg1, arg2 := t.arg2, arg3 := t.arg3, mem := t.mem, host := t.host, returned := t.returned }

theorem HostOnly.regions {s t : State} (h : HostOnly s t) : t.regions = s.regions := (congrArg State.regions h :)
theorem HostOnly.status {s t : State} (h : HostOnly s t) : t.status = s.status := (congrArg State.status h :)

/-- Between commands the invariant asks nothing of what belongs to the host but the form of memory. -/
theorem Inv.hostOnly {s t : State} (h : Inv s) (hq : s.seq = none) (ht : HostOnly s t) (hm : t.mem.wf) (hs : t.mem.inSpace) :
    Inv t := by
  rw [ht]
  exact { status := h.status, cfg := h.cfg, result := h.result, memWf := hm, memInSpace := hs
          registers := h.registers
          seq := (seqOk_of_seq_none (by exact hq)).2 ((seqOk_of_seq_none hq).1 h.seq) }

/-- All a host write of a register can do. -/
theorem writeReg_cases {n : Nat} {v : Word} {s t : State} (h : writeReg n v s = .next t) :
    runWord v s = .next t ∨ HostOnly s t ∧ t.mem = s.mem := by
  unfold writeReg at h
  split at h
  next => exact .inl h
  all_goals cases h
  all_goals exact .inr ⟨rfl, rfl⟩

/-- All a host read of a register can do: record what it returns. -/
theorem readReg_cases {n : Nat} {s t : State} (h : readReg n s = .next t) : HostOnly s t ∧ t.mem = s.mem := by
  unfold readReg at h
  split at h <;> cases h
  exact ⟨rfl, rfl⟩

/-- The engine accepting a CRYPT at the finer level keeps the invariant. -/
theorem Inv.startCrypt {s : State} (h : Inv s) (hq : s.seq = none) : Inv s.startCrypt where
  status := statusOk_statusBusy h.status
  cfg := h.cfg
  result := h.result
  registers := by
    have hl : liveState s.startCrypt = liveState s := (liveState_of_seq_none hq).symm
    rw [RegistersOk, hl]
    exact h.registers
  seq := by
    have hs : s.startCrypt.seq = some { phase := .check, s0 := statusState s.status, i := 0, j := 0 } := rfl
    exact (seqOk_of_seq_some hs).2 ⟨statusState_statusBusy _, trivial⟩
  memWf := h.memWf
  memInSpace := h.memInSpace

/-- All a write of CMD at the finer level can do. -/
theorem walkWord_cases {w : Word} {s t : State} (h : walkWord w s = .next t) :
    t = s.startCrypt ∨ runWord w s = .next t := by
  unfold walkWord at h
  split at h
  · cases h; exact .inl rfl
  · exact .inr h

/-- All a command abandoned by an external reset can do: the engine is reset, over the memory as it was or over a part of the writes of
a CRYPT that runs. -/
theorem resetDuring_cases {w : Word} {k : Nat} {s t : State} (h : resetDuring w k s = .next t) :
    t = s.resetEngine ∨ ∃ u, CryptRangesOk s ∧ t = State.resetEngine { s with mem := memAfterWrites k s u } := by
  obtain ⟨u, hu, h⟩ := andThen_eq_next.1 h
  split at h <;> cases h
  next hc =>
    obtain ⟨hw, hc⟩ := hc
    have hu : cryptWith Config.given.toCollaborators s = .next u := by
      rw [runWord, hw] at hu; exact hu
    obtain ⟨code, hc', -⟩ | ⟨-, hr, -⟩ := cryptWith_eq_next.1 hu
    · rw [hc] at hc'; cases hc'
    · exact .inr ⟨u, hr, rfl⟩
  next => exact .inl rfl

theorem resetDuring_inv {w : Word} {k : Nat} {s t : State} (h : Inv s) (ht : resetDuring w k s = .next t) : Inv t := by
  obtain rfl | ⟨u, hr, rfl⟩ := resetDuring_cases ht
  · exact inv_resetEngine h.memWf h.memInSpace
  · refine inv_resetEngine (Memory.wf_writeBytes h.memWf _ _) (Memory.inSpace_writeBytes h.memInSpace _ ?_)
    rw [Memory.length_readBytes]
    exact (Nat.add_le_add_left (Nat.min_le_right _ _) _).trans hr.dst_inSpace

/-- Every operation of the host keeps the invariant. -/
theorem serve_inv {op : HostOp} {s t : State} (h : Inv s) (hq : s.seq = none) (ht : serve op s = .next t) : Inv t := by
  have hkeep : HostOnly s t ∧ t.mem = s.mem → Inv t := fun ⟨hh, hm⟩ =>
    h.hostOnly hq hh (hm ▸ h.memWf) (hm ▸ h.memInSpace)
  cases op with
  | write n v =>
    obtain ht | ht := writeReg_cases ht
    · exact runWord_inv h hq ht
    · exact hkeep ht
  | read n => exact hkeep (readReg_cases ht)
  | store a b =>
    cases ht
    exact h.hostOnly hq rfl (Memory.wf_write h.memWf _ _) (Memory.inSpace_write h.memInSpace a.isLt b)
  | load a => cases ht; exact hkeep ⟨rfl, rfl⟩
  | reset => cases ht; exact inv_resetEngine h.memWf h.memInSpace
  | walk w =>
    obtain rfl | ht := walkWord_cases ht
    · exact h.startCrypt hq
    · exact runWord_inv h hq ht
  | resetDuring w k => exact resetDuring_inv h ht

/-- Settles O49, by what a step can do: a phase of the running CRYPT, nothing, or an operation of the host. -/
theorem stepKeepsTheInvariant : Obligations.StepKeepsTheInvariant := by
  intro s t h ht
  obtain ⟨q, hq, ht⟩ | ⟨-, -, rfl⟩ | ⟨hq, op, rest, -, ht⟩ := step_cases ht
  · exact phaseStep_inv h hq ht
  · exact h
  · have hrest : Inv { s with host := rest } := h.hostOnly hq rfl h.memWf h.memInSpace
    exact serve_inv hrest hq ht

/-- Settles O48: the state at reset is one after an external reset, with an empty memory. -/
theorem invariantHoldsAtReset : Obligations.InvariantHoldsAtReset :=
  inv_resetEngine (s := State.reset) Memory.wf_nil (fun _ h => absurd h List.not_mem_nil)

end Sys2Proof.Machine
end

section
/-! SUPPORT. No step from the invariant reads a hidden register that holds no value (10_state.md R26), nor meets a reserved CFG.MODE
(10_state.md R18). -/

namespace Sys2Proof.Machine

/-- The same collaborators with other free values for CHAIN, WORK and EXT (log 7). -/
def withFreeValues (c : Collaborators) (x y : Block) (e : ExtState) : Collaborators :=
  { c with unwrittenChain := x, unwrittenWork := y, unwrittenExt := e }

/-! ### A register that holds a value is read for that value -/

section
variable (c : Collaborators) (x y : Block) (e : ExtState)

@[simp] theorem withFreeValues_enc : (withFreeValues c x y e).enc = c.enc := rfl
@[simp] theorem withFreeValues_dec : (withFreeValues c x y e).dec = c.dec := rfl
@[simp] theorem withFreeValues_extXform : (withFreeValues c x y e).extXform = c.extXform := rfl

theorem chainValue_withFreeValues {s : State} (h : s.chain.isSome = true) :
    s.chainValue (withFreeValues c x y e) = s.chainValue c := by
  obtain ⟨v, hv⟩ := Option.isSome_iff_exists.1 h
  rw [State.chainValue_of_some hv, State.chainValue_of_some hv]

theorem workValue_withFreeValues {s : State} (h : s.work.isSome = true) :
    s.workValue (withFreeValues c x y e) = s.workValue c := by
  obtain ⟨v, hv⟩ := Option.isSome_iff_exists.1 h
  rw [State.workValue_of_some hv, State.workValue_of_some hv]

theorem extValue_withFreeValues {s : State} (h : s.ext.isSome = true) :
    s.extValue (withFreeValues c x y e) = s.extValue c := by
  obtain ⟨v, hv⟩ := Option.isSome_iff_exists.1 h
  rw [State.extValue_of_some hv, State.extValue_of_some hv]

/-- Sequences with one first part agree when they agree on what it answers. -/
theorem andThen_congr {o : Result} {f g : State → Result} (h : ∀ u, o = .next u → f u = g u) : andThen o f = andThen o g := by
  cases o with
  | next u => exact h u rfl
  | fault r => rfl
  | refused r => rfl

theorem cbcDecByte_withFreeValues {d a j : Nat} {s : State} (hc : s.chain.isSome = true) (hw : s.work.isSome = true) :
    cbcDecByte (withFreeValues c x y e) d a j s = cbcDecByte c d a j s := by
  rw [cbcDecByte, cbcDecByte, chainValue_withFreeValues c x y e hc, workValue_withFreeValues c x y e hw]

theorem cbcDecBytes_withFreeValues {d a n : Nat} {s : State} (hc : s.chain.isSome = true) (hw : s.work.isSome = true) :
    cbcDecBytes (withFreeValues c x y e) d a n s = cbcDecBytes c d a n s := by
  induction n with
  | zero => rfl
  | succ n ih =>
    rw [cbcDecBytes, cbcDecBytes, ih]
    refine andThen_congr fun u hu => ?_
    have ha := cbcDecBytes_advances hu
    exact cbcDecByte_withFreeValues c x y e (ha.chain hc) (ha.work hw)

/-- A block operation reads no register but the one of its mode, and WORK only after it has written it. -/
theorem blockOp_withFreeValues {d a : Nat} {s : State} (hf : ModeFilled s) :
    blockOp (withFreeValues c x y e) d a s = blockOp c d a s := by
  obtain ⟨hcbc, hext⟩ := hf
  unfold blockOp
  split
  next hm hd => rw [cbcEnc_eq, cbcEnc_eq, chainValue_withFreeValues c x y e (hcbc hm), withFreeValues_enc]
  next hm hd => exact cbcDecBytes_withFreeValues c x y e (s := { s with work := _ }) (hcbc hm) rfl
  next => rfl
  next => rfl
  next k hm => rw [extBlock_eq, extBlock_eq, extValue_withFreeValues c x y e (hext k hm), withFreeValues_extXform]
  next => rfl

theorem cryptBlocks_withFreeValues {n : Nat} {s : State} (hf : ModeFilled s) :
    cryptBlocks (withFreeValues c x y e) n s = cryptBlocks c n s := by
  induction n with
  | zero => rfl
  | succ n ih =>
    rw [cryptBlocks, cryptBlocks, ih]
    exact andThen_congr fun u hu => blockOp_withFreeValues c x y e (hf.advance (cryptBlocks_advances hu))

/-- In a CRYPT that passes its checks the free values do not matter when the register of its mode is filled; one that fails them reads
no hidden register. -/
theorem cryptWith_withFreeValues {s : State} (hf : statusState s.status = stateReady → ModeFilled s) :
    cryptWith (withFreeValues c x y e) s = cryptWith c s := by
  unfold cryptWith
  split
  next => rfl
  next hc => rw [cryptBlocks_withFreeValues c x y e (hf (cryptCheck_eq_none.1 hc).1)]

/-- A phase in its place reads no hidden register without a value. -/
theorem phaseStep_withFreeValues {q : Seq} {s : State} (hok : phaseOk s q) (hf : q.s0 = stateReady → ModeFilled s) :
    phaseStep (withFreeValues c x y e) q s = phaseStep c q s := by
  cases hp : q.phase <;> simp only [phaseStep, hp] <;> simp only [phaseOk, hp] at hok
  case xor =>
    obtain ⟨⟨hr, -⟩, hm, -⟩ := hok
    rw [cbcEncXor, cbcEncXor, chainValue_withFreeValues c x y e ((hf hr).1 hm)]
  case cipher =>
    obtain ⟨-, -, hw⟩ := hok
    unfold phaseCipher
    split
    next hd => rw [cbcEncCipher, cbcEncCipher, workValue_withFreeValues c x y e (hw hd), withFreeValues_enc]
    next => rfl
  case store =>
    obtain ⟨⟨hr, -⟩, hm, -⟩ := hok
    rw [cbcEncStore, cbcEncStore, chainValue_withFreeValues c x y e ((hf hr).1 hm)]
  case xorStore =>
    obtain ⟨⟨hr, -⟩, hm, -, hw, -⟩ := hok
    rw [phaseXorStore, phaseXorStore, cbcDecByte_withFreeValues c x y e ((hf hr).1 hm) hw]
  case block =>
    obtain ⟨⟨hr, -⟩, -⟩ := hok
    rw [blockOp_withFreeValues c x y e (hf hr)]

end

/-! ### No reserved CFG.MODE -/

theorem withRange_ne_fault_reserved {s : State} {k : Access} {a n : Nat} {go : Result} (h : go ≠ .fault .reservedCfgMode) :
    withRange s k a n go ≠ .fault .reservedCfgMode := by
  unfold withRange
  split_ifs
  · nofun
  · nofun
  · exact h
  · nofun

theorem withCryptRanges_ne_fault_reserved {s : State} {go : Result} (h : go ≠ .fault .reservedCfgMode) :
    withCryptRanges s go ≠ .fault .reservedCfgMode := by
  unfold withCryptRanges
  split_ifs
  · exact h
  · nofun
  · nofun
  · nofun
  · exact withRange_ne_fault_reserved (withRange_ne_fault_reserved h)

theorem constructWithIv_ne_fault_reserved {m : Mode} {d : Direction} {load : Block → State → State} {s : State} :
    constructWithIv m d load s ≠ .fault .reservedCfgMode := by
  unfold constructWithIv
  split
  · nofun
  · exact withRange_ne_fault_reserved nofun

/-- A CRYPT in a mode that a rule produces does not stop on its mode. -/
theorem cryptWith_ne_fault_reserved {c : Collaborators} {s : State} (hm : cfgMode s.cfg ≠ none) :
    cryptWith c s ≠ .fault .reservedCfgMode := by
  unfold cryptWith
  split
  · nofun
  · obtain ⟨u, hu⟩ := cryptBlocks_answers c (blockCount s) hm
    rw [hu]
    exact withCryptRanges_ne_fault_reserved nofun

theorem phaseStep_ne_fault_reserved {c : Collaborators} {q : Seq} {s : State} (hm : cfgMode s.cfg ≠ none) :
    phaseStep c q s ≠ .fault .reservedCfgMode := by
  cases hp : q.phase <;> simp only [phaseStep, hp]
  case check =>
    unfold phaseCheck
    split
    · nofun
    · exact withCryptRanges_ne_fault_reserved nofun
  case xor => nofun
  case cipher => unfold phaseCipher; split <;> nofun
  case store => nofun
  case xorStore =>
    obtain ⟨u, hu⟩ := cbcDecByte_answers c (dstBlockAddr s q.i) (srcBlockAddr s q.i) q.j s
    rw [phaseXorStore, hu]
    nofun
  case block =>
    obtain ⟨u, hu⟩ := blockOp_answers c (dstBlockAddr s q.i) (srcBlockAddr s q.i) hm
    rw [hu]
    nofun
  case next => nofun
  case done => nofun

theorem exec_ne_fault_reserved {i : Instr} {s : State} (hm : cfgMode s.cfg ≠ none) : exec i s ≠ .fault .reservedCfgMode := by
  cases i with
  | constructEcb d => nofun
  | constructCbc d => exact constructWithIv_ne_fault_reserved
  | constructCfb d => exact constructWithIv_ne_fault_reserved
  | constructOfb d => exact constructWithIv_ne_fault_reserved
  | constructCtr d => exact constructWithIv_ne_fault_reserved
  | blksize => nofun
  | crypt => exact cryptWith_ne_fault_reserved hm

theorem runWord_ne_fault_reserved {w : Word} {s : State} (hm : cfgMode s.cfg ≠ none) : runWord w s ≠ .fault .reservedCfgMode := by
  unfold runWord
  split
  · exact exec_ne_fault_reserved hm
  · nofun
  · nofun

theorem serve_ne_fault_reserved {op : HostOp} {s : State} (hm : cfgMode s.cfg ≠ none) : serve op s ≠ .fault .reservedCfgMode := by
  cases op with
  | write n v =>
    simp only [serve, writeReg]
    split
    case h_1 => exact runWord_ne_fault_reserved hm
    all_goals nofun
  | read n => simp only [serve, readReg]; split <;> nofun
  | store a b => nofun
  | load a => nofun
  | reset => nofun
  | walk w =>
    simp only [serve, walkWord]
    split
    · nofun
    · exact runWord_ne_fault_reserved hm
  | resetDuring w k =>
    simp only [serve, resetDuring]
    cases hr : runWord w s with
    | next t => nofun
    | fault r => rw [andThen_fault, ← hr]; exact runWord_ne_fault_reserved hm
    | refused r => nofun

/-- In a mode that a rule produces no step stops on a reserved CFG.MODE (10_state.md R18). -/
theorem step_ne_fault_reserved {s : State} (hm : cfgMode s.cfg ≠ none) : step s ≠ .fault .reservedCfgMode := by
  unfold step
  split
  · exact phaseStep_ne_fault_reserved hm
  · unfold hostStep
    split
    · nofun
    · exact serve_ne_fault_reserved hm

/-- Outside of a running CRYPT, where STATE is BUSY, the invariant in READY fills the register of the mode. -/
theorem Inv.modeFilled_of_status {s : State} (h : Inv s) (hr : statusState s.status = stateReady) : ModeFilled s := by
  obtain hq | ⟨q, hq⟩ := Option.eq_none_or_eq_some s.seq
  · exact h.modeFilled ((liveState_of_seq_none hq).trans hr)
  · exact absurd ((h.status_busy hq).symm.trans hr) (by decide)

/-- Settles O50: from the invariant the register a block operation reads is filled, and CFG.MODE is one a rule produces. -/
theorem noEmptyRegisterIsRead : Obligations.NoEmptyRegisterIsRead := by
  rintro s c x y e h rfl
  refine ⟨?_, fun q hq => ?_, step_ne_fault_reserved (cfgMode_ne_none h.cfg)⟩
  · exact cryptWith_withFreeValues _ x y e h.modeFilled_of_status
  · rw [step_busy hq]
    exact phaseStep_withFreeValues _ x y e (h.phaseOk hq) fun hr => h.modeFilled ((liveState_of_seq_some hq).trans hr)

end Sys2Proof.Machine
end

section
/-! SUPPORT. What each command and each step can change (10_state.md R14 to R25, R29, R32), and the statements about it. -/

namespace Sys2Proof.Machine

/-! ### Commands -/

/-- No command changes an ARG register, the sequencing state, the platform's map or what belongs to the host. -/
theorem exec_frame {i : Instr} {s t : State} (h : exec i s = .next t) :
    t.arg0 = s.arg0 ∧ t.arg1 = s.arg1 ∧ t.arg2 = s.arg2 ∧ t.arg3 = s.arg3 ∧ t.seq = s.seq ∧ t.regions = s.regions ∧
      t.host = s.host ∧ t.returned = s.returned := by
  obtain ⟨code, -, rfl⟩ | ⟨-, rfl⟩ | ⟨d, -, rfl⟩ | ⟨d, -, -, rfl⟩ | ⟨k, d, -, -, rfl⟩ | ⟨-, -, -, u, hu, rfl⟩ := exec_cases h
  case' inr.inr.inr.inr.inr => rw [(cryptBlocks_hidOnly hu).1]
  all_goals exact ⟨rfl, rfl, rfl, rfl, rfl, rfl, rfl, rfl⟩

/-- Settles O28, by what a command can do: a failing completion, BLKSIZE, a CONSTRUCT, or a CRYPT whose blocks ran. -/
theorem registersWrittenOnlyBy : Obligations.RegistersWrittenOnlyBy := by
  intro i s t h
  have hframe := exec_frame h
  obtain ⟨code, -, rfl⟩ | ⟨rfl, rfl⟩ | ⟨d, rfl, rfl⟩ | ⟨d, rfl, -, rfl⟩ | ⟨k, d, rfl, -, rfl⟩ | ⟨rfl, -, -, u, hu, rfl⟩ :=
    exec_cases h
  · exact ⟨absurd rfl, absurd rfl, absurd rfl, absurd rfl, absurd rfl, absurd rfl, hframe⟩
  · exact ⟨absurd rfl, absurd rfl, absurd rfl, absurd rfl, fun _ => rfl, absurd rfl, hframe⟩
  · exact ⟨absurd rfl, absurd rfl, absurd rfl, fun _ => ⟨⟨.ecb, d, rfl⟩, statusCode_statusAfter ..⟩, absurd rfl, absurd rfl,
      hframe⟩
  · exact ⟨fun _ => .inl ⟨d, rfl⟩, absurd rfl, absurd rfl, fun _ => ⟨⟨.cbc, d, rfl⟩, statusCode_statusAfter ..⟩, absurd rfl,
      absurd rfl, hframe⟩
  · refine ⟨absurd rfl, absurd rfl, fun _ => .inl ⟨d, ?_⟩, fun _ => ⟨⟨.ext k, d, rfl⟩, statusCode_statusAfter ..⟩, absurd rfl,
      absurd rfl, hframe⟩
    cases k <;> simp [constructInstr]
  · obtain ⟨hid, hcbc, hext⟩ := cryptBlocks_hidOnly hu
    refine ⟨fun hc => .inr ⟨rfl, ?_⟩, fun hw => ⟨rfl, ?_⟩, fun he => .inr ⟨rfl, ?_⟩, absurd hid.cfg, absurd hid.result,
      fun _ => ⟨rfl, statusCode_statusAfter ..⟩, hframe⟩
    · exact by_contra fun hm => hc (hcbc hm).1
    · exact by_contra fun hm => hw (hcbc hm).2
    · exact by_contra fun hm => he (hext (not_exists.1 hm))

theorem constructInstr_ne_blksize (m : Mode) (d : Direction) : constructInstr m d ≠ .blksize := by
  rcases m with _ | _ | _ | _ | _ <;> nofun

theorem constructInstr_ne_crypt (m : Mode) (d : Direction) : constructInstr m d ≠ .crypt := by
  rcases m with _ | _ | _ | _ | _ <;> nofun

/-- STATE and CODE after a command: READY and 0 after a CONSTRUCT that succeeds; else STATE is kept, and the command was no CONSTRUCT or
the code is nonzero (10_state.md R29, R30). -/
theorem exec_state {i : Instr} {s t : State} (h : exec i s = .next t) :
    ((∃ m d, i = constructInstr m d) ∧ t.status = statusAfter s.status .ok stateReady) ∨
      ∃ code, t.status = statusAfter s.status code (statusState s.status) ∧
        ((∃ m d, i = constructInstr m d) → code ≠ .ok) := by
  obtain ⟨code, hc, rfl⟩ | ⟨rfl, rfl⟩ | ⟨d, rfl, rfl⟩ | ⟨d, rfl, -, rfl⟩ | ⟨k, d, rfl, -, rfl⟩ | ⟨rfl, -, -, u, hu, rfl⟩ :=
    exec_cases h
  · exact .inr ⟨code, rfl, fun _ => hc⟩
  · exact .inr ⟨.ok, rfl, fun ⟨m, d, hi⟩ => absurd hi.symm (constructInstr_ne_blksize m d)⟩
  · exact .inl ⟨⟨.ecb, d, rfl⟩, rfl⟩
  · exact .inl ⟨⟨.cbc, d, rfl⟩, rfl⟩
  · exact .inl ⟨⟨.ext k, d, rfl⟩, rfl⟩
  · refine .inr ⟨.ok, ?_, fun ⟨m, d, hi⟩ => absurd hi.symm (constructInstr_ne_crypt m d)⟩
    rw [State.finish_status, (cryptBlocks_hidOnly hu).1.status]

/-- The same of any word written to CMD: one that is no command completes with a nonzero code. -/
theorem runWord_state {w : Word} {s t : State} (h : runWord w s = .next t) :
    ((∃ m d, decode w = .instr (constructInstr m d)) ∧ t.status = statusAfter s.status .ok stateReady) ∨
      ∃ code, t.status = statusAfter s.status code (statusState s.status) ∧
        ((∃ m d, decode w = .instr (constructInstr m d)) → code ≠ .ok) := by
  obtain ⟨i, hi, h⟩ | ⟨-, rfl⟩ | ⟨-, rfl⟩ := runWord_eq_next.1 h
  · simp only [hi, Decoded.instr.injEq]
    exact exec_state h
  · exact .inr ⟨.unsupportedMode, rfl, nofun⟩
  · exact .inr ⟨.illegalCommand, rfl, nofun⟩

/-- Settles O29, by the status that a word leaves. -/
theorem stateTransitionsOfCommands : Obligations.StateTransitionsOfCommands := by
  intro w s t h
  obtain ⟨hi, ht⟩ | ⟨code, ht, hc⟩ := runWord_state h <;>
    rw [ht, statusCode_statusAfter, statusState_statusAfter]
  · exact .inl ⟨hi, rfl, rfl⟩
  · exact .inr ⟨fun ⟨hi, h0⟩ => hc hi (codeBits_eq_zero.1 h0), rfl⟩

/-! ### CHAIN after a CBC CRYPT -/

theorem lastBlock_concat (ch : Option Block) (xs : List Block) (x : Block) : lastBlock ch (xs ++ [x]) = some x := by
  induction xs generalizing ch with
  | nil => rfl
  | cons y ys ih => exact ih _

/-- The last of at least one block of memory. -/
theorem lastBlock_blocksAt (ch : Option Block) (m : Memory) (a n : Nat) :
    lastBlock ch (blocksAt m a (n + 1)) = some (m.readBlock (a + n * Config.B)) := by
  rw [blocksAt_succ, lastBlock_concat]

/-- Settles O34: CHAIN is the last block of the output when encrypting, of the source when decrypting (41_cbc_block_ops.md R79). -/
theorem chainHoldsLastCiphertext : Obligations.ChainHoldsLastCiphertext := by
  intro s t n hr hm hn h
  rw [exec_crypt, cryptWith_of_runs hr hm] at h
  obtain ⟨-, -, hwf⟩ := hr
  cases h
  refine ⟨fun hd => ?_, fun hd => ?_⟩ <;>
    simp only [hd, State.finish_chain, State.finish_mem, State.withHid_chain, State.withHid_mem]
  · have hlen := length_streamFn Config.given.toCollaborators .cbc .encrypt s.hid (srcBlocks s)
    have hout := blocksAt_writeBytes hwf (dstAddr s)
      (streamFn Config.given.toCollaborators .cbc .encrypt s.hid (srcBlocks s)).2
    rw [hlen, srcBlocks, length_blocksAt, hn] at hout
    rw [srcBlocks, hn, dstBlockAddr, ← lastBlock_blocksAt s.chain, hout, streamFn_cbc_encrypt]
    rfl
  · rw [streamFn_cbc_decrypt, srcBlocks, hn]
    exact lastBlock_blocksAt s.chain ..

/-! ### Steps -/

/-- Settles O1. -/
theorem resetLeavesTheStatedValues : Obligations.ResetLeavesTheStatedValues := by
  refine ⟨by decide, fun s rest hq hh => ⟨State.resetEngine { s with host := rest }, step_host hq hh, ?_⟩⟩
  exact ⟨rfl, rfl, rfl, rfl, rfl, rfl, rfl, rfl, rfl, rfl, rfl, rfl, rfl⟩

theorem writeReg_of_gt {n : Nat} (hn : 7 < n) (v : Word) (s : State) : writeReg n v s = .refused (.registerNumber n) := by
  obtain ⟨k, rfl⟩ := Nat.exists_eq_add_of_le' hn
  rfl

theorem readReg_of_gt {n : Nat} (hn : 7 < n) (s : State) : readReg n s = .refused (.registerNumber n) := by
  obtain ⟨k, rfl⟩ := Nat.exists_eq_add_of_le' hn
  rfl

/-- Settles O43, by the step at an operation of the host, for each register number (10_state.md R22). -/
theorem hostRegisterMap : Obligations.HostRegisterMap := by
  intro s rest n v hq
  refine ⟨fun hh => ?_, fun hh => ?_⟩ <;> rw [step_host hq hh]
  · refine ⟨?_, ?_, ?_, ?_, ?_, ?_, fun hn => writeReg_of_gt hn v _⟩
    case refine_2 => rintro (rfl | rfl | rfl) <;> rfl
    all_goals (rintro rfl; rfl)
  · refine ⟨?_, ?_, ?_, ?_, ?_, ?_, ?_, ?_, fun hn => readReg_of_gt hn _⟩
    all_goals (rintro rfl; rfl)

theorem runWord_regions {w : Word} {s t : State} (h : runWord w s = .next t) : t.regions = s.regions := by
  obtain ⟨i, -, h⟩ | ⟨-, rfl⟩ | ⟨-, rfl⟩ := runWord_eq_next.1 h
  · obtain ⟨-, -, -, -, -, hregions, -⟩ := exec_frame h
    exact hregions
  · rfl
  · rfl

theorem PhaseEffect.regions {q : Seq} {s t : State} (h : PhaseEffect q s t) : t.regions = s.regions := by
  cases h with
  | ends => rfl
  | moves => rfl
  | works ha => exact ha.hidOnly.regions

theorem serve_regions {op : HostOp} {s t : State} (h : serve op s = .next t) : t.regions = s.regions := by
  cases op with
  | write n v => exact (writeReg_cases h).elim runWord_regions fun ht => ht.1.regions
  | read n => exact (readReg_cases h).1.regions
  | store a b => cases h; rfl
  | load a => cases h; rfl
  | reset => cases h; rfl
  | walk w =>
    obtain rfl | h := walkWord_cases h
    · rfl
    · exact runWord_regions h
  | resetDuring w k => obtain rfl | ⟨u, -, rfl⟩ := resetDuring_cases h <;> rfl

/-- Settles O45, by what a step can do. -/
theorem platformMapIsConstant : Obligations.PlatformMapIsConstant := by
  intro s t h
  obtain ⟨q, -, h⟩ | ⟨-, -, rfl⟩ | ⟨-, op, rest, -, h⟩ := step_cases h
  · exact (phaseStep_effect h).regions
  · rfl
  · exact (serve_regions h :)

/-! ### STICKY -/

theorem runWord_status {w : Word} {s t : State} (h : runWord w s = .next t) :
    ∃ code state, t.status = statusAfter s.status code state := by
  obtain ⟨-, ht⟩ | ⟨code, ht, -⟩ := runWord_state h
  · exact ⟨.ok, stateReady, ht⟩
  · exact ⟨code, _, ht⟩

/-- After a completion STICKY is 1 exactly when it was or the code is nonzero (10_state.md R24). -/
theorem statusSticky_statusAfter_eq_one {w : Word} {code : Code} {state : BitVec 2} :
    statusSticky (statusAfter w code state) = 1#1 ↔
      statusSticky w = 1#1 ∨ statusCode (statusAfter w code state) ≠ 0#4 := by
  rw [statusSticky_statusAfter, statusCode_statusAfter, ne_eq, codeBits_eq_zero]
  split <;> simp_all

theorem runWord_sticky {w : Word} {s t : State} (h : runWord w s = .next t) (hs : statusSticky s.status = 1#1) :
    statusSticky t.status = 1#1 := by
  obtain ⟨code, state, ht⟩ := runWord_status h
  rw [ht]
  exact statusSticky_statusAfter_eq_one.2 (.inl hs)

/-- No phase clears STICKY. -/
theorem PhaseEffect.sticky {q : Seq} {s t : State} (h : PhaseEffect q s t) (hs : statusSticky s.status = 1#1) :
    statusSticky t.status = 1#1 := by
  cases h with
  | ends => exact statusSticky_statusAfter_eq_one.2 (.inl hs)
  | moves => exact hs
  | works ha => exact (congrArg statusSticky ha.hidOnly.status).trans hs

/-- No operation of the host but the two resets clears STICKY (10_state.md R24; 70_reset_and_hazards.md R116). -/
theorem serve_sticky {op : HostOp} {s t : State} (h : serve op s = .next t) (hs : statusSticky s.status = 1#1) :
    statusSticky t.status = 1#1 ∨ op = .reset ∨ ∃ w k, op = .resetDuring w k := by
  cases op with
  | write n v =>
    obtain h | ⟨h, -⟩ := writeReg_cases h
    · exact .inl (runWord_sticky h hs)
    · exact .inl (h.status ▸ hs)
  | read n => exact .inl ((readReg_cases h).1.status ▸ hs)
  | store a b => cases h; exact .inl hs
  | load a => cases h; exact .inl hs
  | reset => exact .inr (.inl rfl)
  | walk w =>
    obtain rfl | h := walkWord_cases h
    · exact .inl ((statusSticky_statusBusy _).trans hs)
    · exact .inl (runWord_sticky h hs)
  | resetDuring w k => exact .inr (.inr ⟨w, k, rfl⟩)

/-- Settles O31, by the status that a word leaves and by what a step can do. -/
theorem stickyIsClearedOnlyByReset : Obligations.StickyIsClearedOnlyByReset := by
  refine ⟨fun w s t h => ?_, fun s t h hs ht => ?_⟩
  · obtain ⟨code, state, hst⟩ := runWord_status h
    rw [hst]
    exact statusSticky_statusAfter_eq_one
  · obtain ⟨q, -, h⟩ | ⟨-, -, rfl⟩ | ⟨hq, op, rest, hh, h⟩ := step_cases h
    · exact absurd ((phaseStep_effect h).sticky hs) ht
    · exact absurd hs ht
    · refine ⟨hq, rest, ?_⟩
      obtain h | rfl | ⟨w, k, rfl⟩ := serve_sticky h hs
      · exact absurd h ht
      · exact .inl hh
      · exact .inr ⟨w, k, hh⟩

end Sys2Proof.Machine
end

section
/-! SUPPORT. Where the engine's accesses stop (20_memory.md R37 to R43), what a CRYPT makes of memory (20_memory.md R42, R45), and the
host's own loads and stores (20_memory.md R46), with the statements about them. -/

namespace Sys2Proof.Machine

/-! ### The guard of one access -/

theorem withRange_of_wraps {s : State} {k : Access} {a n : Nat} (h : 2 ^ Config.AW < a + n) (go : Result) :
    withRange s k a n go = .refused (.wrappedRange a n) := if_pos h

theorem withRange_of_device {s : State} {k : Access} {a n : Nat} (h : a + n ≤ 2 ^ Config.AW)
    (hdev : touchesDevice s.regions a n = true) (go : Result) : withRange s k a n go = .refused (.deviceRange a n) := by
  rw [withRange, if_neg (Nat.not_lt.2 h), if_pos hdev]

theorem withRange_of_not_admitted {s : State} {k : Access} {a n : Nat} (h : a + n ≤ 2 ^ Config.AW)
    (hdev : touchesDevice s.regions a n = false) (hadm : admits s.regions a n k = false) (go : Result) :
    withRange s k a n go = .fault (.notAdmitted k a n) := by
  rw [withRange, if_neg (Nat.not_lt.2 h), if_neg (by simp [hdev]), if_neg (by simp [hadm])]

/-! ### The IV of a CONSTRUCT -/

theorem constructWithIv_of_ivLen {m : Mode} {d : Direction} {load : Block → State → State} {s : State}
    (h : s.arg1 = 16#32) :
    constructWithIv m d load s =
      withRange s .read (ivAddr s) Config.B (.next ((load (s.mem.readBlock (ivAddr s)) s).construct m d)) := by
  have hlen : ivLen s = Config.B := congrArg BitVec.toNat h
  rw [constructWithIv, if_neg (not_not.2 hlen)]

/-- With an IV of the right length a CONSTRUCT of a mode that uses it is a guarded read of 16 bytes (40_commands.md R62). -/
theorem exec_constructWithIv_guarded {i : Instr} {d : Direction} {s : State}
    (hi : i ∈ [Instr.constructCbc d, Instr.constructCfb d, Instr.constructOfb d, Instr.constructCtr d])
    (h : s.arg1 = 16#32) : ∃ go, exec i s = withRange s .read (ivAddr s) 16 go := by
  simp only [List.mem_cons, List.not_mem_nil, or_false] at hi
  obtain rfl | rfl | rfl | rfl := hi <;> exact ⟨_, constructWithIv_of_ivLen h⟩

/-- Settles O14, by the guard of the read of the IV. -/
theorem constructStopsOnItsIvRange : Obligations.ConstructStopsOnItsIvRange := by
  intro i d s hi h
  obtain ⟨go, hgo⟩ := exec_constructWithIv_guarded hi h
  rw [hgo]
  exact ⟨fun hwrap => withRange_of_wraps hwrap go, fun hle hdev => withRange_of_device hle hdev go,
    fun hle hdev hadm => withRange_of_not_admitted hle hdev hadm go⟩

/-! ### The ranges of a CRYPT -/

/-- Two nonempty ranges overlap inexactly when they share an address and start apart (20_memory.md R41). -/
theorem inexactOverlap_eq_true {d a n : Nat} (hn : n ≠ 0) :
    inexactOverlap d a n = true ↔ d ≠ a ∧ a < d + n ∧ d < a + n := by
  simp only [inexactOverlap, disjoint, Bool.and_eq_true, Bool.not_eq_true', decide_eq_false_iff_not,
    decide_eq_true_eq, hn, false_or]
  omega

section
variable {s : State} (hn : srcLen s ≠ 0) (go : Result)
include hn

theorem withCryptRanges_of_src_wraps (h : 2 ^ Config.AW < srcAddr s + srcLen s) :
    withCryptRanges s go = .refused (.wrappedRange (srcAddr s) (srcLen s)) := by
  rw [withCryptRanges, if_neg hn, if_pos h]

theorem withCryptRanges_of_dst_wraps (hsrc : srcAddr s + srcLen s ≤ 2 ^ Config.AW)
    (h : 2 ^ Config.AW < dstAddr s + srcLen s) :
    withCryptRanges s go = .refused (.wrappedRange (dstAddr s) (srcLen s)) := by
  rw [withCryptRanges, if_neg hn, if_neg (Nat.not_lt.2 hsrc), if_pos h]

variable (hsrc : srcAddr s + srcLen s ≤ 2 ^ Config.AW) (hdst : dstAddr s + srcLen s ≤ 2 ^ Config.AW)
include hsrc hdst

theorem withCryptRanges_of_inexact (h : inexactOverlap (dstAddr s) (srcAddr s) (srcLen s) = true) :
    withCryptRanges s go = .refused .inexactOverlap := by
  rw [withCryptRanges, if_neg hn, if_neg (Nat.not_lt.2 hsrc), if_neg (Nat.not_lt.2 hdst), if_pos h]

/-- Past the wraps and the overlap a CRYPT is a guarded read of its source and then a guarded write of its destination. -/
theorem withCryptRanges_of_not_inexact (h : ¬ inexactOverlap (dstAddr s) (srcAddr s) (srcLen s) = true) :
    withCryptRanges s go =
      withRange s .read (srcAddr s) (srcLen s) (withRange s .write (dstAddr s) (srcLen s) go) := by
  rw [withCryptRanges, if_neg hn, if_neg (Nat.not_lt.2 hsrc), if_neg (Nat.not_lt.2 hdst), if_neg h]

end

/-- A CRYPT that passes its checks goes through the guard of its ranges (40_commands.md R69, R70). -/
theorem exec_crypt_guarded {s : State} (h : CryptChecksPass s) : ∃ go, exec .crypt s = withCryptRanges s go := by
  rw [exec_crypt, cryptWith, cryptCheck_eq_none.2 h]
  exact ⟨_, rfl⟩

/-- Settles O32, by the guard of the ranges: wraps, then overlap, then the guard of the read, then that of the write. -/
theorem cryptStopsOnItsRanges : Obligations.CryptStopsOnItsRanges := by
  intro s hp hn
  obtain ⟨go, hgo⟩ := exec_crypt_guarded hp
  rw [hgo, ← inexactOverlap_eq_true hn]
  refine ⟨withCryptRanges_of_src_wraps hn go, withCryptRanges_of_dst_wraps hn go, fun hsrc hdst => ?_⟩
  refine ⟨withCryptRanges_of_inexact hn go hsrc hdst, fun hov => ?_⟩
  rw [withCryptRanges_of_not_inexact hn go hsrc hdst hov]
  have hread (h1 : touchesDevice s.regions (srcAddr s) (srcLen s) = false)
      (h2 : admits s.regions (srcAddr s) (srcLen s) .read = true) (go : Result) :
      withRange s .read (srcAddr s) (srcLen s) go = go := withRange_of_ok ⟨hsrc, h1, h2⟩ go
  refine ⟨fun h1 => withRange_of_device hsrc h1 _, fun h1 h2 => withRange_of_not_admitted hsrc h1 h2 _,
    fun h1 h2 h3 => ?_, fun h1 h2 h3 h4 => ?_⟩ <;> rw [hread h1 h2]
  · exact withRange_of_device hdst h3 go
  · exact withRange_of_not_admitted hdst h3 h4 go

/-! ### What a CRYPT that runs leaves -/

/-- The state after a CRYPT from `s` in mode `m`: what `streamFn` makes of the hidden registers and the source blocks, its output in
the destination, and a completion with code 0. -/
def cryptResult (c : Collaborators) (m : Mode) (s : State) : State :=
  (s.withHid (streamFn c m (cfgDir s.cfg) s.hid (srcBlocks s)).1
    (s.mem.writeBytes (dstAddr s) (bytesOfBlocks (streamFn c m (cfgDir s.cfg) s.hid (srcBlocks s)).2))).finish .ok

theorem cryptResult_hid (c : Collaborators) (m : Mode) (s : State) :
    (cryptResult c m s).hid = (streamFn c m (cfgDir s.cfg) s.hid (srcBlocks s)).1 := rfl

theorem cryptResult_mem (c : Collaborators) (m : Mode) (s : State) :
    (cryptResult c m s).mem =
      s.mem.writeBytes (dstAddr s) (bytesOfBlocks (streamFn c m (cfgDir s.cfg) s.hid (srcBlocks s)).2) := rfl

/-- The destination of a CRYPT holds the output of `streamFn` as blocks. -/
theorem dstBlocks_cryptResult (c : Collaborators) (m : Mode) {s : State} (hm : s.mem.wf) :
    dstBlocks s (cryptResult c m s) = (streamFn c m (cfgDir s.cfg) s.hid (srcBlocks s)).2 := by
  have h := blocksAt_writeBytes hm (dstAddr s) (streamFn c m (cfgDir s.cfg) s.hid (srcBlocks s)).2
  rw [length_streamFn, srcBlocks, length_blocksAt] at h
  exact h

/-- A CRYPT that passes its checks stores to its destination only (20_memory.md R45). -/
theorem cryptResult_read_of_outside (c : Collaborators) (m : Mode) {s : State} (hp : CryptChecksPass s) (hm : s.mem.wf)
    {a : Nat} (ha : OutsideDst s a) : (cryptResult c m s).mem.read a = s.mem.read a := by
  rw [cryptResult_mem]
  refine Memory.read_writeBytes_of_outside hm ?_
  rw [length_bytesOfBlocks, length_streamFn, srcBlocks, length_blocksAt, srcLen_eq_blocks hp]
  exact ha

/-- Blocks that have a next state run in a mode that a rule produces, if there are any. -/
theorem exists_mode_of_cryptBlocks {c : Collaborators} {n : Nat} {s t : State} (h : cryptBlocks c n s = .next t) :
    ∃ m, n ≠ 0 → cfgMode s.cfg = some m := by
  cases n with
  | zero => exact ⟨.ecb, absurd rfl⟩
  | succ n =>
    obtain ⟨u, hu, ht⟩ := andThen_eq_next.1 h
    have hne : cfgMode u.cfg ≠ none := fun hnone => by rw [blockOp, hnone] at ht; cases ht
    rw [(cryptBlocks_hidOnly hu).1.cfg] at hne
    obtain ⟨m, hm⟩ := Option.ne_none_iff_exists'.1 hne
    exact ⟨m, fun _ => hm⟩

/-- A CRYPT that runs ends in `cryptResult`; without a block the mode does not matter. -/
theorem cryptWith_eq_cryptResult {c : Collaborators} {m : Mode} {s : State} (hr : CryptRuns s)
    (hmode : blockCount s ≠ 0 → cfgMode s.cfg = some m) : cryptWith c s = .next (cryptResult c m s) := by
  by_cases hn : blockCount s = 0
  · obtain ⟨hp, hranges, -⟩ := hr
    refine cryptWith_eq_next.2 (.inr ⟨hp, hranges, s, by rw [hn]; rfl, ?_⟩)
    rw [cryptResult, srcBlocks, hn]
    rfl
  · exact cryptWith_of_runs hr (hmode hn)

/-- A next state of CRYPT is the one of a failing check, or `cryptResult` in the mode of CFG. -/
theorem cryptWith_next_cases {c : Collaborators} {s t : State} (hm : s.mem.wf) (h : cryptWith c s = .next t) :
    (∃ code, cryptCheck (statusState s.status) s = some code ∧ t = s.finish code) ∨
      ∃ m, CryptChecksPass s ∧ (blockCount s ≠ 0 → cfgMode s.cfg = some m) ∧ t = cryptResult c m s := by
  obtain hfail | ⟨hp, hranges, u, hu, -⟩ := cryptWith_eq_next.1 h
  · exact .inl hfail
  · obtain ⟨m, hmode⟩ := exists_mode_of_cryptBlocks hu
    rw [cryptWith_eq_cryptResult ⟨hp, hranges, hm⟩ hmode, Host.Outcome.next.injEq] at h
    exact .inr ⟨m, hp, hmode, h.symm⟩

/-- Settles O27: registers by what every outcome of CRYPT leaves alone, memory by where `cryptResult` stores. -/
theorem cryptFrame : Obligations.CryptFrame := by
  intro s t hm h
  rw [exec_crypt] at h
  obtain ⟨code, ht, hcbc, hext⟩ := cryptWith_hidOnly h
  have hstatus : t.status = statusAfter s.status code (statusState s.status) := (congrArg State.status ht :)
  refine ⟨fun a ha => ?_, hcbc, hext, ?_, ?_⟩
  · obtain ⟨_, -, rfl⟩ | ⟨m, hp, -, rfl⟩ := cryptWith_next_cases hm h
    · rfl
    · exact cryptResult_read_of_outside _ m hp hm ha
  · rw [hstatus, statusState_statusAfter]
  · rw [hstatus]; exact ht

/-- Settles O33: the hidden registers and the destination blocks are `streamFn` of CFG, the hidden registers and the source blocks
alone (20_memory.md R42). -/
theorem inPlaceEqualsDisjoint : Obligations.InPlaceEqualsDisjoint := by
  intro s s' t hr hr' _ _ hcfg hchain hwork hext hlen hsrc h
  rw [exec_crypt] at h
  have hhid : s'.hid = s.hid := by rw [State.hid, State.hid, hchain, hwork, hext]
  have hcount : blockCount s' = blockCount s := congrArg (· / Config.B) hlen
  obtain ⟨hp, -, hwf⟩ := hr
  have ⟨_, _, hwf'⟩ := hr'
  obtain ⟨code, hc, -⟩ | ⟨m, -, hmode, rfl⟩ := cryptWith_next_cases hwf h
  · rw [cryptCheck_eq_none.2 hp] at hc; cases hc
  have hmode' : blockCount s' ≠ 0 → cfgMode s'.cfg = some m := by rw [hcount, hcfg]; exact hmode
  have hregs : (cryptResult Config.given.toCollaborators m s').hid = (cryptResult Config.given.toCollaborators m s).hid := by
    rw [cryptResult_hid, cryptResult_hid, hcfg, hhid, hsrc]
  refine ⟨_, cryptWith_eq_cryptResult hr' hmode', congrArg Hid.chain hregs, congrArg Hid.work hregs,
    congrArg Hid.ext hregs, ?_⟩
  rw [dstBlocks_cryptResult _ m hwf', dstBlocks_cryptResult _ m hwf, hcfg, hhid, hsrc]

/-! ### The host's loads and stores -/

theorem step_store {s : State} {a : Word} {v : Byte} {rest : List HostOp} (hq : s.seq = none)
    (hh : s.host = .store a v :: rest) :
    step s = .next { s with host := rest, mem := s.mem.write a.toNat v } := step_host hq hh

theorem step_load {s : State} {a : Word} {rest : List HostOp} (hq : s.seq = none) (hh : s.host = .load a :: rest) :
    step s = .next { s with host := rest, returned := .byte a (s.mem.read a.toNat) :: s.returned } := step_host hq hh

/-- Settles O44, by two steps of the host and a read after a write. -/
theorem hostMemoryIsPlainStorage : Obligations.HostMemoryIsPlainStorage := by
  intro s a b v rest hq hm hh
  have hread : (s.mem.write a.toNat v).read b.toNat = if b = a then v else s.mem.read b.toNat := by
    simp only [Memory.read_write hm, BitVec.toNat_inj]
  rw [← hread]
  exact ⟨_, _, step_store hq hh, step_load hq rfl, rfl, rfl, rfl, rfl⟩

end Sys2Proof.Machine
end

section
/-! SUPPORT. The decoder: one lemma per clause of R58, what every word is, and the words of each outcome (30_encoding.md R54 to
R58). -/

namespace Sys2Proof

/-! ### Fields -/

theorem bitVec_append_inj {v w : Nat} {x x' : BitVec v} {y y' : BitVec w} : x ++ y = x' ++ y' ↔ x = x' ∧ y = y' := by
  refine ⟨fun h => ⟨?_, ?_⟩, fun ⟨hx, hy⟩ => hx ▸ hy ▸ rfl⟩
  · simpa only [BitVec.extractLsb'_append_eq_left] using congrArg (BitVec.extractLsb' w v) h
  · simpa only [BitVec.extractLsb'_append_eq_right] using congrArg (BitVec.extractLsb' 0 w) h

/-- Words made of four fields are equal field by field. -/
theorem fields_inj {z z' : BitVec 24} {m m' : BitVec 3} {d d' : BitVec 1} {o o' : BitVec 4} :
    z ++ m ++ d ++ o = z' ++ m' ++ d' ++ o' ↔ z = z' ∧ m = m' ∧ d = d' ∧ o = o' := by
  simp only [bitVec_append_inj, and_assoc]

theorem eq_commandWord_iff {w : Word} {m : BitVec 3} {d : BitVec 1} {o : BitVec 4} :
    w = commandWord m d o ↔ wordMbz w = 0#24 ∧ wordMode w = m ∧ wordDir w = d ∧ wordOp w = o := by
  conv_lhs => rw [word_eq_fields w]
  exact fields_inj

theorem bits_7_4_eq_zero {w : Word} : w.extractLsb' 4 4 = 0#4 ↔ wordMode w = 0#3 ∧ wordDir w = 0#1 := by
  rw [word_bits_7_4]
  exact bitVec_append_inj (x' := 0#3) (y' := 0#1)

theorem fields_and_constructMask (z : BitVec 24) (m : BitVec 3) (d : BitVec 1) (o : BitVec 4) :
    (z ++ m ++ d ++ o) &&& (BitVec.allOnes 24 ++ BitVec.allOnes 3 ++ 0#1 ++ BitVec.allOnes 4) = z ++ m ++ 0#1 ++ o := by
  simp only [BitVec.and_append, BitVec.and_allOnes, BitVec.and_zero]

/-- The mask of a CONSTRUCT row keeps every field but DIR (R54). -/
theorem and_constructMask (w : Word) : w &&& 0xFFFFFFEF#32 = wordMbz w ++ wordMode w ++ 0#1 ++ wordOp w := by
  conv_lhs => rw [word_eq_fields w]
  exact fields_and_constructMask ..

/-- The match of a CONSTRUCT row is its word with DIR 0 (R54). -/
theorem constructMatch_eq (m : Mode) : 0x00000001#32 + 32#32 * (modeBits m).setWidth 32 = commandWord (modeBits m) 0#1 1#4 := by
  rcases m with _ | _ | _ | _ | _ <;> decide

/-- The numbers of OP that stand for no command (R49, R56). -/
theorem op_unassigned_iff {o : BitVec 4} : o = 0#4 ∨ 4 ≤ o.toNat ↔ o ≠ 1#4 ∧ o ≠ 2#4 ∧ o ≠ 3#4 := by
  revert o; decide

/-! ### The clauses of the decoder -/

section
variable {w : Word}

theorem decode_of_mbz (hz : wordMbz w ≠ 0#24) : decode w = .illegal := if_pos hz

theorem decode_of_construct (hz : wordMbz w = 0#24) (ho : wordOp w = 1#4) {m : Mode} (hm : wordMode w = modeBits m) :
    decode w = .instr (constructInstr m (directionOfBits (wordDir w))) := by
  simp [decode, hz, ho, modeOfBits_eq_some.2 hm]

theorem decode_of_reserved (hz : wordMbz w = 0#24) (ho : wordOp w = 1#4) (hm : 4 < (wordMode w).toNat) :
    decode w = .reservedMode := by
  simp [decode, hz, ho, modeOfBits_eq_none.2 hm]

theorem decode_of_op_blksize (hz : wordMbz w = 0#24) (ho : wordOp w = 2#4) :
    decode w = if w.extractLsb' 4 4 = 0#4 then .instr .blksize else .illegal := by
  simp [decode, hz, ho, bits_7_4_eq_zero]

theorem decode_of_op_crypt (hz : wordMbz w = 0#24) (ho : wordOp w = 3#4) :
    decode w = if w.extractLsb' 4 4 = 0#4 then .instr .crypt else .illegal := by
  simp [decode, hz, ho, bits_7_4_eq_zero]

theorem decode_of_op_unassigned (h1 : wordOp w ≠ 1#4) (h2 : wordOp w ≠ 2#4) (h3 : wordOp w ≠ 3#4) :
    decode w = .illegal := by
  simp [decode, h1, h2, h3]

end

/-! ### The words of each outcome -/

/-- What makes a word illegal (R56). -/
def IllegalWord (w : Word) : Prop :=
  wordMbz w ≠ 0#24 ∨ wordOp w = 0#4 ∨ 4 ≤ (wordOp w).toNat ∨
    ((wordOp w = 2#4 ∨ wordOp w = 3#4) ∧ w.extractLsb' 4 4 ≠ 0#4)

theorem illegalWord_iff {w : Word} :
    IllegalWord w ↔ wordMbz w ≠ 0#24 ∨ (wordOp w ≠ 1#4 ∧ wordOp w ≠ 2#4 ∧ wordOp w ≠ 3#4) ∨
      ((wordOp w = 2#4 ∨ wordOp w = 3#4) ∧ w.extractLsb' 4 4 ≠ 0#4) := by
  rw [← op_unassigned_iff, or_assoc, IllegalWord]

theorem IllegalWord.decode {w : Word} (h : IllegalWord w) : decode w = .illegal := by
  by_cases hz : wordMbz w = 0#24
  · obtain h | ⟨h1, h2, h3⟩ | ⟨h2 | h3, hb⟩ := illegalWord_iff.1 h
    · exact absurd hz h
    · exact decode_of_op_unassigned h1 h2 h3
    · rw [decode_of_op_blksize hz h2, if_neg hb]
    · rw [decode_of_op_crypt hz h3, if_neg hb]
  · exact decode_of_mbz hz

/-- What every word is: the word of a command, a CONSTRUCT with a reserved mode, or illegal (R54 to R56, R58). -/
theorem word_cases (w : Word) :
    (∃ i, w = encode i) ∨ (∃ m d, 4 < m.toNat ∧ w = commandWord m d 1#4) ∨ IllegalWord w := by
  rw [illegalWord_iff]
  by_cases hz : wordMbz w = 0#24
  · by_cases h1 : wordOp w = 1#4
    · cases hm : modeOfBits (wordMode w) with
      | some m =>
        refine .inl ⟨constructInstr m (directionOfBits (wordDir w)), ?_⟩
        rw [encode_constructInstr, directionBits_directionOfBits]
        exact eq_commandWord_iff.2 ⟨hz, modeOfBits_eq_some.1 hm, rfl, h1⟩
      | none => exact .inr (.inl ⟨_, _, modeOfBits_eq_none.1 hm, eq_commandWord_iff.2 ⟨hz, rfl, rfl, h1⟩⟩)
    · by_cases h23 : wordOp w = 2#4 ∨ wordOp w = 3#4
      · by_cases hb : w.extractLsb' 4 4 = 0#4
        · obtain ⟨hmode, hdir⟩ := bits_7_4_eq_zero.1 hb
          exact .inl (h23.elim (fun h2 => ⟨.blksize, eq_commandWord_iff.2 ⟨hz, hmode, hdir, h2⟩⟩)
            fun h3 => ⟨.crypt, eq_commandWord_iff.2 ⟨hz, hmode, hdir, h3⟩⟩)
        · exact .inr (.inr (.inr (.inr ⟨h23, hb⟩)))
      · exact .inr (.inr (.inr (.inl ⟨h1, not_or.1 h23⟩)))
  · exact .inr (.inr (.inl hz))

theorem decode_encode (i : Instr) : decode (encode i) = .instr i := by
  cases i with
  | constructEcb d => exact (Laws.Encoding.constructEcb d rfl).1
  | constructCbc d => exact (Laws.Encoding.constructCbc d rfl).1
  | constructCfb d => exact (Laws.Encoding.constructCfb d rfl).1
  | constructOfb d => exact (Laws.Encoding.constructOfb d rfl).1
  | constructCtr d => exact (Laws.Encoding.constructCtr d rfl).1
  | blksize => exact (Laws.Encoding.blksize rfl).1
  | crypt => exact (Laws.Encoding.crypt rfl).1

theorem decode_commandWord_reserved {m : BitVec 3} (hm : 4 < m.toNat) (d : BitVec 1) :
    decode (commandWord m d 1#4) = .reservedMode := by
  obtain ⟨hz, hmode, -, ho⟩ := eq_commandWord_iff.1 (rfl : commandWord m d 1#4 = _)
  exact decode_of_reserved hz ho (hmode.symm ▸ hm)

/-- A word decodes to a command exactly when it is the word of that command (R54). -/
theorem decode_eq_instr {w : Word} {i : Instr} : decode w = .instr i ↔ w = encode i := by
  refine ⟨fun h => ?_, fun h => h ▸ decode_encode i⟩
  obtain ⟨j, rfl⟩ | ⟨m, d, hm, rfl⟩ | hw := word_cases w
  · rw [decode_encode] at h; cases h; rfl
  · rw [decode_commandWord_reserved hm] at h; cases h
  · rw [hw.decode] at h; cases h

theorem decode_eq_reservedMode {w : Word} :
    decode w = .reservedMode ↔ ∃ m d, 4 < m.toNat ∧ w = commandWord m d 1#4 := by
  refine ⟨fun h => ?_, fun ⟨m, d, hm, hw⟩ => hw ▸ decode_commandWord_reserved hm d⟩
  obtain ⟨j, rfl⟩ | hw | hw := word_cases w
  · rw [decode_encode] at h; cases h
  · exact hw
  · rw [hw.decode] at h; cases h

theorem decode_eq_illegal {w : Word} : decode w = .illegal ↔ IllegalWord w := by
  refine ⟨fun h => ?_, IllegalWord.decode⟩
  obtain ⟨j, rfl⟩ | ⟨m, d, hm, rfl⟩ | hw := word_cases w
  · rw [decode_encode] at h; cases h
  · rw [decode_commandWord_reserved hm] at h; cases h
  · exact hw

theorem decode_eq_constructInstr {w : Word} {m : Mode} {d : Direction} :
    decode w = .instr (constructInstr m d) ↔
      wordMbz w = 0#24 ∧ wordMode w = modeBits m ∧ wordDir w = directionBits d ∧ wordOp w = 1#4 := by
  rw [decode_eq_instr, encode_constructInstr, eq_commandWord_iff]

/-- The mask and match of a CONSTRUCT row select its two words (R54). -/
theorem constructRow_iff {w : Word} {m : Mode} :
    (∃ d, decode w = .instr (constructInstr m d)) ↔
      w &&& 0xFFFFFFEF#32 = 0x00000001#32 + 32#32 * (modeBits m).setWidth 32 := by
  rw [and_constructMask, constructMatch_eq]
  simp only [decode_eq_constructInstr]
  constructor
  · rintro ⟨d, hz, hm, -, ho⟩
    exact fields_inj.2 ⟨hz, hm, rfl, ho⟩
  · intro h
    obtain ⟨hz, hm, -, ho⟩ := fields_inj.1 h
    exact ⟨directionOfBits (wordDir w), hz, hm, (directionBits_directionOfBits _).symm, ho⟩

/-- The commands, in the order of R54's table. -/
def commands : List Instr :=
  [.constructEcb .encrypt, .constructEcb .decrypt, .constructCbc .encrypt, .constructCbc .decrypt, .constructCfb .encrypt,
    .constructCfb .decrypt, .constructOfb .encrypt, .constructOfb .decrypt, .constructCtr .encrypt, .constructCtr .decrypt,
    .blksize, .crypt]

theorem mem_commands (i : Instr) : i ∈ commands := by
  obtain ⟨_ | _⟩ | ⟨_ | _⟩ | ⟨_ | _⟩ | ⟨_ | _⟩ | ⟨_ | _⟩ | _ | _ := i <;> decide

/-- The command words, each with its command: the table of R54. -/
def legalWords : List (Word × Instr) := commands.map fun i => (encode i, i)

theorem mem_legalWords {w : Word} {i : Instr} : (w, i) ∈ legalWords ↔ w = encode i := by
  simp [legalWords, mem_commands, eq_comm]

/-- The mask of a command without operands keeps every bit, so that its row is one word (R54). -/
theorem decode_eq_instr_iff_mask {w : Word} {i : Instr} : decode w = .instr i ↔ w &&& 0xFFFFFFFF#32 = encode i := by
  rw [decode_eq_instr, show 0xFFFFFFFF#32 = BitVec.allOnes 32 from rfl, BitVec.and_allOnes]

end Sys2Proof
end

section
/-! SUPPORT. The statements about the command word (30_encoding.md R48 to R58). -/

namespace Sys2Proof.Machine

/-! ### A host write of CMD -/

theorem step_write_cmd {s : State} {w : Word} {rest : List HostOp} (hq : s.seq = none) (hh : s.host = .write 0 w :: rest) :
    step s = runWord w { s with host := rest } := step_host hq hh

theorem runWord_of_instr {w : Word} {i : Instr} (h : decode w = .instr i) (s : State) : runWord w s = exec i s := by
  rw [runWord, h]

theorem runWord_of_reservedMode {w : Word} (h : decode w = .reservedMode) (s : State) :
    runWord w s = .next (s.finish .unsupportedMode) := by
  rw [runWord, h]

theorem runWord_of_illegal {w : Word} (h : decode w = .illegal) (s : State) :
    runWord w s = .next (s.finish .illegalCommand) := by
  rw [runWord, h]

/-- A word that completes in every state with one code changes STATUS alone, apart from the host's queue (60_exceptions.md R105,
R107, R108). -/
theorem step_write_finishing_word {s : State} {w : Word} {rest : List HostOp} {code : Code} (hq : s.seq = none)
    (hh : s.host = .write 0 w :: rest) (hw : ∀ u, runWord w u = .next (u.finish code)) :
    ∃ st, step s = .next { s with host := rest, status := st } ∧
      StatusBecomes s.status st code (statusState s.status) :=
  ⟨_, (step_write_cmd hq hh).trans (hw _), statusAfter_becomes ..⟩

/-! ### The statements -/

/-- Settles O8, by the words of each outcome. -/
theorem decodeAndEncodeAgree : Obligations.DecodeAndEncodeAgree :=
  ⟨fun i _ => decode_encode i, fun _ _ h => (decode_eq_instr.1 h).symm⟩

/-- Settles O4, by the decoder's clauses and the step at a write of CMD. -/
theorem decodeFollowsItsRule : Obligations.DecodeFollowsItsRule := by
  refine ⟨fun w => ⟨decode_of_mbz, fun hz => ⟨fun ho => ⟨fun hm => ?_, decode_of_reserved hz ho⟩, decode_of_op_blksize hz,
    decode_of_op_crypt hz, decode_of_op_unassigned⟩⟩, fun s w rest hq hh => step_write_cmd hq hh⟩
  obtain ⟨m, hmode⟩ := Option.ne_none_iff_exists'.1 (mt modeOfBits_eq_none.1 (Nat.not_lt.2 hm))
  have hbits := modeOfBits_eq_some.1 hmode
  exact ⟨m, directionOfBits (wordDir w), decode_of_construct hz ho hbits, hbits.symm, directionBits_directionOfBits _⟩

/-- Settles O5: the twelve words are those of the commands. -/
theorem legalWordsAreTheTwelve : Obligations.LegalWordsAreTheTwelve :=
  ⟨fun _ _ => decode_eq_instr.trans mem_legalWords.symm, fun _ _ => constructRow_iff, fun _ => decode_eq_instr_iff_mask,
    fun _ => decode_eq_instr_iff_mask⟩

/-- Settles O6: MODE 5 to 7 and either DIR make the six words; the completion changes STATUS alone. -/
theorem reservedModeWordsComplete : Obligations.ReservedModeWordsComplete := by
  refine ⟨fun w => ⟨fun h => ?_, (List.forall_iff_forall_mem (p := (decode · = .reservedMode))).1 (by decide) w⟩,
    fun s w rest hq hh hw => step_write_finishing_word hq hh (runWord_of_reservedMode hw)⟩
  obtain ⟨m, d, hm, rfl⟩ := decode_eq_reservedMode.1 h
  clear h
  revert m d
  decide

/-- Settles O7, by the words that decode to illegal; the completion changes STATUS alone. -/
theorem illegalWordsComplete : Obligations.IllegalWordsComplete :=
  ⟨fun _ => decode_eq_illegal, fun _ _ _ hq hh hw => step_write_finishing_word hq hh (runWord_of_illegal hw)⟩

/-- Settles O2. -/
theorem stepRunsTheDecodedCommand : Obligations.StepRunsTheDecodedCommand := by
  intro s w rest i hq hh hi _
  rw [step_write_cmd hq hh, runWord_of_instr hi]

/-- Settles O3, by the table's words, and the cause of the word that is illegal. -/
theorem decodeOfWrittenWords : Obligations.DecodeOfWrittenWords :=
  ⟨decode_word_ecb_dec, decode_word_cbc_dec, decode_word_cfb_enc, decode_word_ofb_dec, decode_word_ctr_dec, decode_word_blksize,
    decode_word_crypt, decode_of_mbz (by decide)⟩

end Sys2Proof.Machine
end

section
/-! SUPPORT. The statements about CONSTRUCT, BLKSIZE and CRYPT (40_commands.md R62 to R71). -/

namespace Sys2Proof.Machine

/-! ### CONSTRUCT -/

/-- A CONSTRUCT with an IV of another length fails with code 1 and changes STATUS alone (40_commands.md R62). -/
theorem constructWithIv_wrong_length (m : Mode) (d : Direction) (load : Block → State → State) {s : State}
    (h : s.arg1 ≠ 16#32) :
    ∃ st, constructWithIv m d load s = .next { s with status := st } ∧
      StatusBecomes s.status st .invalidKeyOrIV (statusState s.status) :=
  ⟨_, constructWithIv_eq_next.2 (.inl ⟨h, rfl⟩), statusAfter_becomes ..⟩

/-- A CONSTRUCT that may read its IV loads it, latches CFG and ends in READY (40_commands.md R62). -/
theorem constructWithIv_loads (m : Mode) (d : Direction) (load : Block → State → State) {s : State} (h : IvOk s) :
    ∃ iv, constructWithIv m d load s = .next ((load iv s).construct m d) ∧
      ∀ j : Fin Config.B, iv[j] = s.mem.read (s.arg0.toNat + j) :=
  ⟨_, constructWithIv_eq_next.2 (.inr ⟨h, rfl⟩), fun j => Memory.getElem_readBlock _ _ _ j.isLt⟩

/-- Settles O9. -/
theorem constructEcbCompletes : Obligations.ConstructEcbCompletes := by
  intro d
  cases d <;> exact ⟨rfl, fun s => ⟨_, rfl, statusAfter_becomes ..⟩⟩

/-- Settles O10, by what a CONSTRUCT with an IV can do. -/
theorem constructCbcCompletes : Obligations.ConstructCbcCompletes := by
  intro d s
  refine ⟨by cases d <;> rfl, constructWithIv_wrong_length .cbc d loadChain, fun h => ?_⟩
  obtain ⟨iv, hexec, hiv⟩ := constructWithIv_loads .cbc d loadChain h
  cases d <;> exact ⟨_, iv, hexec, hiv, statusAfter_becomes ..⟩

/-- Settles O11, by what a CONSTRUCT with an IV can do. -/
theorem constructCfbCompletes : Obligations.ConstructCfbCompletes := by
  intro d s
  refine ⟨by cases d <;> rfl, constructWithIv_wrong_length (.ext .cfb) d (loadExt _ .cfb d), fun h => ?_⟩
  obtain ⟨iv, hexec, hiv⟩ := constructWithIv_loads (.ext .cfb) d (loadExt _ .cfb d) h
  cases d <;> exact ⟨_, iv, hexec, hiv, statusAfter_becomes ..⟩

/-! ### A CRYPT in a mode that ignores the direction -/

/-- A state with another CFG. -/
def State.withCfg (s : State) (w : Word) : State := { s with cfg := w }

/-- In a mode with a given transform the block operation is EXT.BLOCK, whatever DIR is (42_mode_selector.md R87). -/
theorem blockOp_of_ext {c : Collaborators} {k : ExtMode} {d a : Nat} {s : State} (hs : cfgMode s.cfg = some (.ext k)) :
    blockOp c d a s = extBlock c k d a s := by
  rw [blockOp, hs]

theorem blockOp_withCfg {c : Collaborators} {k : ExtMode} {w : Word} {d a : Nat} {s t : State}
    (hs : cfgMode s.cfg = some (.ext k)) (hw : cfgMode w = some (.ext k)) (h : blockOp c d a s = .next t) :
    blockOp c d a (s.withCfg w) = .next (t.withCfg w) := by
  rw [blockOp_of_ext hs, extBlock_eq, Host.Outcome.next.injEq] at h
  have hw' : cfgMode (s.withCfg w).cfg = some (.ext k) := hw
  rw [blockOp_of_ext hw', extBlock_eq]
  subst h
  simp only [State.withCfg, State.extValue]

theorem cryptBlocks_withCfg {c : Collaborators} {k : ExtMode} {w : Word} {n : Nat} {s t : State}
    (hs : cfgMode s.cfg = some (.ext k)) (hw : cfgMode w = some (.ext k)) (h : cryptBlocks c n s = .next t) :
    cryptBlocks c n (s.withCfg w) = .next (t.withCfg w) := by
  induction n generalizing t with
  | zero => cases h; rfl
  | succ n ih =>
    obtain ⟨u, hu, ht⟩ := andThen_eq_next.1 h
    have hcfg : u.cfg = s.cfg := (cryptBlocks_hidOnly hu).1.cfg
    exact andThen_eq_next.2 ⟨u.withCfg w, ih hu, blockOp_withCfg (hcfg ▸ hs) hw ht⟩

/-- A CRYPT with the DIR bit the other way differs in CFG alone (42_mode_selector.md R95). -/
theorem cryptWith_withCfg {c : Collaborators} {k : ExtMode} {w : Word} {s t : State}
    (hs : cfgMode s.cfg = some (.ext k)) (hw : cfgMode w = some (.ext k)) (h : cryptWith c s = .next t) :
    cryptWith c (s.withCfg w) = .next (t.withCfg w) := by
  obtain ⟨code, hc, rfl⟩ | ⟨hp, hr, u, hu, rfl⟩ := cryptWith_eq_next.1 h
  · exact cryptWith_eq_next.2 (.inl ⟨code, hc, rfl⟩)
  · exact cryptWith_eq_next.2 (.inr ⟨hp, hr, u.withCfg w, cryptBlocks_withCfg hs hw hu, rfl⟩)

/-- Settles O12: the CONSTRUCT by what one with an IV can do, the direction by `EXT_SYM`, the later CRYPT by its blocks. -/
theorem constructOfbCompletes : Obligations.ConstructOfbCompletes := by
  intro d s
  refine ⟨by cases d <;> rfl, constructWithIv_wrong_length (.ext .ofb) d (loadExt _ .ofb d), fun h => ?_, fun hcfg t ht => ?_⟩
  · obtain ⟨iv, hexec, hiv⟩ := constructWithIv_loads (.ext .ofb) d (loadExt _ .ofb d) h
    have hsym d' := Config.given.ext_sym .ofb d' d iv (by decide)
    cases d <;> exact ⟨_, iv, hexec, hiv, hsym, statusAfter_becomes ..⟩
  · exact cryptWith_withCfg (k := .ofb) (by rw [hcfg]; decide) (by decide) ht

/-- Settles O13, as for OFB. -/
theorem constructCtrCompletes : Obligations.ConstructCtrCompletes := by
  intro d s
  refine ⟨by cases d <;> rfl, constructWithIv_wrong_length (.ext .ctr) d (loadExt _ .ctr d), fun h => ?_, fun hcfg t ht => ?_⟩
  · obtain ⟨iv, hexec, hiv⟩ := constructWithIv_loads (.ext .ctr) d (loadExt _ .ctr d) h
    have hsym d' := Config.given.ext_sym .ctr d' d iv (by decide)
    cases d <;> exact ⟨_, iv, hexec, hiv, hsym, statusAfter_becomes ..⟩
  · exact cryptWith_withCfg (k := .ctr) (by rw [hcfg]; decide) (by decide) ht

/-! ### BLKSIZE and the checks of CRYPT -/

/-- Settles O15. -/
theorem blksizeCompletes : Obligations.BlksizeCompletes :=
  ⟨rfl, fun _ => ⟨_, rfl, statusAfter_becomes ..⟩⟩

/-- A CRYPT that fails a check completes with its code and changes STATUS alone (40_commands.md R69). -/
theorem exec_crypt_of_check {s : State} {code : Code} (h : cryptCheck (statusState s.status) s = some code) :
    ∃ st, exec .crypt s = .next { s with status := st } ∧ StatusBecomes s.status st code (statusState s.status) :=
  ⟨_, cryptWith_eq_next.2 (.inl ⟨code, h, rfl⟩), statusAfter_becomes ..⟩

/-- Settles O16, by what the three checks answer. -/
theorem cryptChecksInOrder : Obligations.CryptChecksInOrder := by
  refine ⟨rfl, fun s => ⟨fun hstate => ?_, fun hstate hlen => ?_, fun hstate hlen hbuf => ?_⟩⟩ <;>
    refine exec_crypt_of_check (cryptCheck_eq_some.2 ?_)
  · exact .inl ⟨rfl, hstate⟩
  · exact .inr (.inl ⟨rfl, hstate, hlen⟩)
  · exact .inr (.inr ⟨rfl, hstate, hlen, hbuf⟩)

/-- Settles O17: the checks pass, no range is used and no block runs (40_commands.md R71). -/
theorem cryptOfLengthZero : Obligations.CryptOfLengthZero := by
  intro s hready hzero
  have hlen : srcLen s = 0 := congrArg BitVec.toNat hzero
  have hp : CryptChecksPass s := ⟨hready, by rw [hlen, Nat.zero_mod], by rw [hlen]; exact Nat.zero_le _⟩
  have hblocks : cryptBlocks Config.given.toCollaborators (blockCount s) s = .next s := by rw [blockCount, hlen]; rfl
  exact ⟨_, cryptWith_eq_next.2 (.inr ⟨hp, .inl hlen, s, hblocks, rfl⟩), hready ▸ statusAfter_becomes ..⟩

/-! ### A CRYPT that runs, by mode -/

/-- A CRYPT that runs completes: what `streamFn` makes of the source is in the hidden registers and the destination, and nothing else
changes (40_commands.md R70; 20_memory.md R45). -/
theorem exec_crypt_completes {m : Mode} {s : State} {h : Hid} {out : List Block} (hr : CryptRuns s)
    (hmode : cfgMode s.cfg = some m)
    (hout : streamFn Config.given.toCollaborators m (cfgDir s.cfg) s.hid (srcBlocks s) = (h, out)) :
    ∃ st mem, exec .crypt s =
        .next { s with chain := h.chain, work := h.work, ext := h.ext, mem := mem, status := st } ∧
      blocksAt mem (dstAddr s) (blockCount s) = out ∧
      (∀ a, OutsideDst s a → Memory.read mem a = s.mem.read a) ∧ StatusBecomes s.status st .ok stateReady := by
  have ⟨hp, _, hm⟩ := hr
  refine ⟨statusAfter s.status .ok (statusState s.status), (cryptResult Config.given.toCollaborators m s).mem, ?_, ?_,
    fun a => cryptResult_read_of_outside _ m hp hm, ?_⟩
  · rw [exec_crypt, cryptWith_of_runs hr hmode, cryptResult_mem, hout]
    rfl
  · exact (dstBlocks_cryptResult _ m hm).trans (congrArg Prod.snd hout)
  · rw [hp.1]
    exact statusAfter_becomes ..

/-- Settles O23. -/
theorem cryptCbcEncryptCompletes : Obligations.CryptCbcEncryptCompletes := by
  rintro s _ hr hm hd rfl
  exact exec_crypt_completes hr hm (hd ▸ streamFn_cbc_encrypt _ s.hid (srcBlocks s))

/-- Settles O24. -/
theorem cryptCbcDecryptCompletes : Obligations.CryptCbcDecryptCompletes := by
  rintro s _ hr hm hd rfl
  exact exec_crypt_completes hr hm (hd ▸ streamFn_cbc_decrypt _ s.hid (srcBlocks s))

/-- Settles O25. -/
theorem cryptEcbCompletes : Obligations.CryptEcbCompletes := by
  intro s hr hm
  cases hd : cfgDir s.cfg
  · exact exec_crypt_completes hr hm (hd ▸ streamFn_ecb_encrypt _ s.hid (srcBlocks s))
  · exact exec_crypt_completes hr hm (hd ▸ streamFn_ecb_decrypt _ s.hid (srcBlocks s))

/-- The bytes of the source blocks of a CRYPT are the bytes of its source. -/
theorem bytesOfBlocks_srcBlocks {s : State} (hp : CryptChecksPass s) :
    bytesOfBlocks (srcBlocks s) = s.mem.readBytes (srcAddr s) (srcLen s) := by
  rw [srcBlocks, bytesOfBlocks_blocksAt, srcLen_eq_blocks hp]

/-- Settles O26: the blocks of a nonempty source make one application of the given transform, by `EXT_STREAM`. -/
theorem cryptExtCompletes : Obligations.CryptExtCompletes := by
  rintro s k _ hr hm rfl hn
  have ⟨hp, _⟩ := hr
  obtain ⟨x, xs, hsrc⟩ : ∃ x xs, srcBlocks s = x :: xs := by
    refine List.exists_cons_of_ne_nil fun hnil => hn ?_
    have hlen : blockCount s = 0 := by rw [← length_blocksAt s.mem (srcAddr s) (blockCount s)]; exact congrArg List.length hnil
    rw [← srcLen_eq_blocks hp, hlen, Nat.zero_mul]
  obtain ⟨hhid, hbytes⟩ := streamFn_ext Config.given k (cfgDir s.cfg) s.hid x xs
  rw [← hsrc, bytesOfBlocks_srcBlocks hp] at hhid hbytes
  obtain ⟨st, mem, hexec, hdst, hframe, hst⟩ := exec_crypt_completes hr hm (Prod.ext hhid rfl)
  refine ⟨st, mem, hexec, ?_, hframe, hst⟩
  rw [← srcLen_eq_blocks hp, ← bytesOfBlocks_blocksAt, hdst, srcLen_eq_blocks hp]
  exact hbytes

end Sys2Proof.Machine
end

section
/-! SUPPORT. A stream split over two CRYPT commands (40_commands.md R72): the CRYPT of a part of the blocks of another. -/

namespace Sys2Proof.Machine

/-! ### The CRYPT of a part -/

/-- The state with the operands of a CRYPT of `b` of its blocks, from block `a` on (40_commands.md R72). -/
def State.cryptPart (s : State) (a b : Nat) : State :=
  { s with
    arg0 := s.arg0 + BitVec.ofNat 32 (a * 16)
    arg2 := s.arg2 + BitVec.ofNat 32 (a * 16)
    arg3 := BitVec.ofNat 32 (b * 16) }

theorem State.cryptPart_zero (s : State) (b : Nat) : s.cryptPart 0 b = { s with arg3 := BitVec.ofNat 32 (b * 16) } := by
  simp [State.cryptPart]

/-- The address of a part does not wrap when the whole range does not. -/
theorem toNat_add_ofNat_of_lt {x : Word} {k : Nat} (h : x.toNat + k < 2 ^ Config.AW) :
    (x + BitVec.ofNat 32 k).toNat = x.toNat + k := by
  rw [BitVec.toNat_add, BitVec.toNat_ofNat, Nat.add_mod_mod, Nat.mod_eq_of_lt h]

/-- A part of a range that the engine may access is one too (20_memory.md R37, R38, R40). -/
theorem RangeOk.part {s : State} {kind : Access} {x n k l : Nat} (h : RangeOk s kind x n) (hkl : k + l ≤ n) :
    RangeOk s kind (x + k) l := by
  obtain ⟨hwrap, hdev, hadm⟩ := h
  refine ⟨by omega, ?_, ?_⟩
  · simp only [touchesDevice, List.any_eq_false, Bool.and_eq_true, decide_eq_true_eq, not_and] at hdev ⊢
    intro r hr ⟨⟨⟨hd, hlo⟩, hhi⟩, hl⟩
    exact hdev r hr ⟨⟨⟨hd, by omega⟩, by omega⟩, by omega⟩
  · simp only [admits, List.any_eq_true, Bool.and_eq_true, decide_eq_true_eq] at hadm ⊢
    obtain ⟨r, hr, ⟨⟨hd, hlo⟩, hhi⟩, hk⟩ := hadm
    exact ⟨r, hr, ⟨⟨hd, by omega⟩, by omega⟩, hk⟩

section
variable {s : State} {a b : Nat} (hr : CryptRuns s) (hab : a + b ≤ blockCount s)
include hr hab

/-- The bytes of a part lie in the source length. -/
theorem CryptRuns.part_le : a * 16 + b * 16 ≤ srcLen s := by
  have hlen : blockCount s * 16 = srcLen s := srcLen_eq_blocks hr.1
  omega

theorem CryptRuns.srcLen_cryptPart : srcLen (s.cryptPart a b) = b * 16 := by
  have := hr.part_le hab
  have : srcLen s < 2 ^ 32 := s.arg3.isLt
  exact Nat.mod_eq_of_lt (by omega)

theorem CryptRuns.blockCount_cryptPart : blockCount (s.cryptPart a b) = b := by
  rw [blockCount, hr.srcLen_cryptPart hab, Nat.mul_div_cancel _ (by decide)]

theorem CryptRuns.cryptPart_addrs (hb : b ≠ 0) :
    dstAddr (s.cryptPart a b) = dstAddr s + a * 16 ∧ srcAddr (s.cryptPart a b) = srcAddr s + a * 16 := by
  have hle := hr.part_le hab
  obtain ⟨-, h0 | ⟨⟨hsrc, -⟩, ⟨hdst, -⟩, -⟩, -⟩ := hr
  · omega
  · simp only [dstAddr, srcAddr] at hsrc hdst ⊢
    exact ⟨toNat_add_ofNat_of_lt (by omega), toNat_add_ofNat_of_lt (by omega)⟩

theorem CryptRuns.cryptPart : CryptRuns (s.cryptPart a b) := by
  have hlen := hr.srcLen_cryptPart hab
  have hle := hr.part_le hab
  have ⟨⟨hready, _, hdst⟩, hranges, hm⟩ := hr
  refine ⟨⟨hready, by rw [hlen]; exact Nat.mul_mod_left .., ?_⟩, ?_, hm⟩
  · rw [hlen]; exact le_trans (by omega) hdst
  by_cases hb : b = 0
  · exact .inl (by rw [hlen, hb])
  obtain ⟨hd, hs⟩ := hr.cryptPart_addrs hab hb
  obtain h0 | ⟨hread, hwrite, hov⟩ := hranges
  · omega
  · rw [CryptRangesOk, hlen, hd, hs]
    refine .inr ⟨hread.part hle, hwrite.part hle, ?_⟩
    simp only [disjoint, decide_eq_true_eq] at hov ⊢
    omega

/-- The source blocks of a part. -/
theorem CryptRuns.srcBlocks_cryptPart : srcBlocks (s.cryptPart a b) = blocksAt s.mem (srcAddr s + a * Config.B) b := by
  rw [srcBlocks, hr.blockCount_cryptPart hab]
  by_cases hb : b = 0
  · rw [hb]; rfl
  · rw [(hr.cryptPart_addrs hab hb).2]; rfl

/-- The CRYPT of a part stores its output in its part of the destination. -/
theorem CryptRuns.cryptResult_cryptPart_mem (c : Collaborators) (m : Mode) :
    (cryptResult c m (s.cryptPart a b)).mem =
      s.mem.writeBytes (dstAddr s + a * Config.B)
        (bytesOfBlocks (streamFn c m (cfgDir s.cfg) s.hid (blocksAt s.mem (srcAddr s + a * Config.B) b)).2) := by
  rw [cryptResult_mem, hr.srcBlocks_cryptPart hab]
  by_cases hb : b = 0
  · rw [hb]; rfl
  · rw [(hr.cryptPart_addrs hab hb).1]; rfl

end

/-! ### One CRYPT after another -/

theorem cryptResult_status (c : Collaborators) (m : Mode) (s : State) :
    (cryptResult c m s).status = statusAfter s.status .ok (statusState s.status) := rfl

/-- Two completions in one state with the code OK are one. -/
theorem statusAfter_ok_statusAfter_ok (w : Word) (b b' : BitVec 2) :
    statusAfter (statusAfter w .ok b') .ok b = statusAfter w .ok b := by
  have hhigh := statusHigh_statusWith w (codeBits .ok) (stickyAfter w .ok) b'
  have hbit3 := statusBit3_statusWith w (codeBits .ok) (stickyAfter w .ok) b'
  have hsticky : stickyAfter (statusAfter w .ok b') .ok = stickyAfter w .ok := by simp [stickyAfter]
  rw [statusAfter, hsticky, statusWith, statusAfter, hhigh, hbit3]
  rfl

/-- The source blocks from `a` on are still as they were when the blocks before them have been written. -/
theorem blocksAt_src_unchanged {m : Memory} (hm : m.wf) {d x a b n : Nat} (h : disjoint d x n = true ∨ d = x)
    (hab : (a + b) * Config.B ≤ n) {ys : List Block} (hy : ys.length = a) :
    blocksAt (m.writeBytes d (bytesOfBlocks ys)) (x + a * Config.B) b = blocksAt m (x + a * Config.B) b := by
  refine blocksAt_congr fun j hj => Memory.read_writeBytes_of_outside hm ?_
  rw [length_bytesOfBlocks, hy]
  rw [Nat.add_mul] at hab
  simp only [disjoint, decide_eq_true_eq] at h
  omega

/-- The state that the CRYPT of the first `a` blocks leaves, but with the operands of the whole. -/
def State.afterFirst (c : Collaborators) (m : Mode) (s : State) (a : Nat) : State :=
  (s.withHid (cryptResult c m (s.cryptPart 0 a)).hid (cryptResult c m (s.cryptPart 0 a)).mem).finish .ok

section
variable {c : Collaborators} {m : Mode} {s : State} {a b : Nat} (hr : CryptRuns s)
include hr

theorem CryptRuns.afterFirst_hid (ha : a ≤ blockCount s) :
    (s.afterFirst c m a).hid = (streamFn c m (cfgDir s.cfg) s.hid (blocksAt s.mem (srcAddr s) a)).1 := by
  have hsrc := hr.srcBlocks_cryptPart (a := 0) (b := a) (by omega)
  rw [Nat.zero_mul, Nat.add_zero] at hsrc
  rw [← hsrc]
  rfl

theorem CryptRuns.afterFirst_mem (ha : a ≤ blockCount s) :
    (s.afterFirst c m a).mem =
      s.mem.writeBytes (dstAddr s)
        (bytesOfBlocks (streamFn c m (cfgDir s.cfg) s.hid (blocksAt s.mem (srcAddr s) a)).2) := by
  have hmem := hr.cryptResult_cryptPart_mem (a := 0) (b := a) (by omega) c m
  rw [Nat.zero_mul, Nat.add_zero, Nat.add_zero] at hmem
  exact hmem

/-- A CRYPT that runs still runs after the CRYPT of its first blocks has completed. -/
theorem CryptRuns.afterFirst (ha : a ≤ blockCount s) : CryptRuns (s.afterFirst c m a) := by
  have hmem := hr.afterFirst_mem (c := c) (m := m) ha
  obtain ⟨⟨hready, hchecks⟩, hranges, hm⟩ := hr
  exact ⟨⟨(statusState_statusAfter ..).trans hready, hchecks⟩, hranges, hmem ▸ Memory.wf_writeBytes hm _ _⟩

/-- The CRYPT of the rest, after the one of the first blocks, leaves the memory, the hidden registers and the STATUS of the whole
(40_commands.md R72). -/
theorem CryptRuns.cryptResult_rest (hab : a + b = blockCount s) :
    (cryptResult c m ((s.afterFirst c m a).cryptPart a b)).mem = (cryptResult c m s).mem ∧
      (cryptResult c m ((s.afterFirst c m a).cryptPart a b)).hid = (cryptResult c m s).hid ∧
      (cryptResult c m ((s.afterFirst c m a).cryptPart a b)).status = (cryptResult c m s).status := by
  have ⟨hp, hranges, hm⟩ := hr
  have ha : a ≤ blockCount s := by omega
  have hrest : a + b ≤ blockCount (s.afterFirst c m a) := hab.le
  have hr' : CryptRuns (s.afterFirst c m a) := hr.afterFirst ha
  have hsrc : blocksAt (s.afterFirst c m a).mem (srcAddr s + a * Config.B) b =
      blocksAt s.mem (srcAddr s + a * Config.B) b := by
    rw [hr.afterFirst_mem ha]
    exact blocksAt_src_unchanged hm hranges.ranges (by rw [hab, srcLen_eq_blocks hp]) (by simp)
  have hout := streamFn_append c m (cfgDir s.cfg) s.hid (blocksAt s.mem (srcAddr s) a)
    (blocksAt s.mem (srcAddr s + a * Config.B) b)
  rw [← blocksAt_add, hab, ← hr.afterFirst_hid ha, ← hsrc] at hout
  refine ⟨?_, ?_, ?_⟩
  · rw [hr'.cryptResult_cryptPart_mem hrest, cryptResult_mem, srcBlocks, hout, bytesOfBlocks_append, Memory.writeBytes_append,
      length_bytesOfBlocks, length_streamFn, length_blocksAt, ← hr.afterFirst_mem ha]
    rfl
  · rw [cryptResult_hid, cryptResult_hid, hr'.srcBlocks_cryptPart hrest, srcBlocks, hout]
    rfl
  · have hstatus : (cryptResult c m ((s.afterFirst c m a).cryptPart a b)).status =
        statusAfter (cryptResult c m s).status .ok (statusState (cryptResult c m s).status) := rfl
    rw [hstatus, cryptResult_status, statusState_statusAfter, statusAfter_ok_statusAfter_ok]

end

/-- Settles O38: both parts run, and the second ends as the whole does. -/
theorem splittingAStream : Obligations.SplittingAStream := by
  intro s t a b hr hab h
  have ⟨hp, _, hm⟩ := hr
  obtain ⟨code, hc, -⟩ | ⟨m, -, hmode, rfl⟩ := cryptWith_next_cases hm h
  · rw [cryptCheck_eq_none.2 hp] at hc; cases hc
  have ha : 0 + a ≤ blockCount s := by omega
  have hr' : CryptRuns (s.afterFirst Config.given.toCollaborators m a) := hr.afterFirst (by omega)
  have hfirst := cryptWith_eq_cryptResult (c := Config.given.toCollaborators) (m := m) (hr.cryptPart ha) fun hn =>
    hmode (by rw [hr.blockCount_cryptPart ha] at hn; omega)
  have hrest := cryptWith_eq_cryptResult (c := Config.given.toCollaborators) (m := m) (hr'.cryptPart hab.le) fun hn =>
    hmode (by rw [hr'.blockCount_cryptPart hab.le] at hn; omega)
  obtain ⟨hmem, hhid, hstatus⟩ := hr.cryptResult_rest (c := Config.given.toCollaborators) (m := m) hab
  rw [← State.cryptPart_zero]
  exact ⟨_, _, hfirst, hrest, hmem, congrArg Hid.chain hhid, congrArg Hid.work hhid, congrArg Hid.ext hhid, hstatus⟩

end Sys2Proof.Machine
end

section
/-! SUPPORT. CBC: one block (41_cbc_block_ops.md R73, R74), and what the recurrences of R82 and R83 say of a stream: the round trip (R84)
and how far a changed block reaches (R85), with the statements about them. -/

namespace Sys2Proof.Machine

/-! ### One block -/

/-- What a CBC block operation leaves when it puts `x` in the destination block and writes WORK and CHAIN. -/
theorem cbcBlock_effect (c : Collaborators) {d : Nat} {s t : State} {wk ch x : Block} (hm : s.mem.wf)
    (ht : t = { s with work := some wk, chain := some ch, mem := s.mem.writeBlock d x }) :
    t.work = some wk ∧ t.chain = some ch ∧ t.mem.readBlock d = x ∧
      (∀ a, a < d ∨ d + 16 ≤ a → t.mem.read a = s.mem.read a) ∧
      (∀ v, s.chain = some v → s.chainValue c = v) ∧ t = { s with work := t.work, chain := t.chain, mem := t.mem } := by
  subst ht
  exact ⟨rfl, rfl, Memory.readBlock_writeBlock hm d x, fun _ ha => Memory.read_writeBlock_of_outside hm x ha,
    fun _ => State.chainValue_of_some, rfl⟩

/-- Settles O19: CBC.ENC is one update of WORK, CHAIN and the destination block. -/
theorem cbcEncOneBlock : Obligations.CbcEncOneBlock := by
  intro c d a s hm
  exact ⟨_, cbcEnc_eq c d a s, cbcBlock_effect c hm rfl⟩

/-- Settles O20: so is CBC.DEC, over blocks that are disjoint or the same. -/
theorem cbcDecOneBlock : Obligations.CbcDecOneBlock := by
  intro c d a s hm hda
  have hranges : disjoint d a Config.B = true ∨ d = a := by
    simp only [disjoint, Config.B, decide_eq_true_eq]
    omega
  exact ⟨_, cbcDec_eq hm hranges, cbcBlock_effect c hm rfl⟩

/-! ### A CRYPT from an IV -/

section
variable {s : State} {iv : Block} (hr : CryptRuns s) (hm : cfgMode s.cfg = some .cbc) (hch : s.chain = some iv)
include hr hm hch

/-- What a CRYPT leaves that encrypts in CBC, in the destination and in CHAIN. -/
theorem exec_crypt_cbc_encrypt (hd : cfgDir s.cfg = .encrypt) :
    ∃ t, exec .crypt s = .next t ∧ dstBlocks s t = cbcEncStream Config.given.enc iv (srcBlocks s) ∧
      t.chain = lastBlock (some iv) (cbcEncStream Config.given.enc iv (srcBlocks s)) := by
  obtain ⟨st, m, hexec, hdst, -⟩ := cryptCbcEncryptCompletes s iv hr hm hd (State.chainValue_of_some hch)
  exact ⟨_, hexec, hdst, by rw [hch]⟩

/-- What a CRYPT leaves that decrypts in CBC, in the destination and in CHAIN. -/
theorem exec_crypt_cbc_decrypt (hd : cfgDir s.cfg = .decrypt) :
    ∃ t, exec .crypt s = .next t ∧ dstBlocks s t = cbcDecStream Config.given.dec iv (srcBlocks s) ∧
      t.chain = lastBlock (some iv) (srcBlocks s) := by
  obtain ⟨st, m, hexec, hdst, -⟩ := cryptCbcDecryptCompletes s iv hr hm hd (State.chainValue_of_some hch)
  exact ⟨_, hexec, hdst, by rw [hch]⟩

end

/-! ### The round trip -/

/-- Decryption undoes encryption from one chain value, by `PRIM_INV` (00_scope.md R7). -/
theorem cbcDecStream_cbcEncStream {enc dec : Block → Block} (hinv : ∀ x, dec (enc x) = x) (ch : Block) (ps : List Block) :
    cbcDecStream dec ch (cbcEncStream enc ch ps) = ps := by
  induction ps generalizing ch with
  | nil => rfl
  | cons p ps ih => rw [cbcEncStream, cbcDecStream, ih, hinv, xorBlock_xorBlock_cancel]

/-- Settles O35: both sides follow their recurrence from the IV, and the primitive is undone block by block. -/
theorem cbcRoundTrip : Obligations.CbcRoundTrip := by
  intro s iv hr hm hd hch
  obtain ⟨t, hexec, hdst, hchain⟩ := exec_crypt_cbc_encrypt hr hm hch hd
  refine ⟨t, hexec, fun u hru hmu hdu hchu hsrc => ?_⟩
  obtain ⟨v, hexec', hdst', hchain'⟩ := exec_crypt_cbc_decrypt hru hmu hchu hdu
  rw [hsrc, hdst] at hdst' hchain'
  exact ⟨v, hexec', hdst'.trans (cbcDecStream_cbcEncStream Config.given.dec_enc iv _), hchain'.trans hchain.symm⟩

/-! ### The recurrences, block by block -/

/-- `C_k = Enc(C_{k-1} xor P_k)` with `C_{-1}` the chain value (41_cbc_block_ops.md R82). -/
theorem getElem?_cbcEncStream {enc : Block → Block} {ch y p : Block} {ps : List Block} {k : Nat}
    (hy : (ch :: cbcEncStream enc ch ps)[k]? = some y) (hp : ps[k]? = some p) :
    (cbcEncStream enc ch ps)[k]? = some (enc (xorBlock y p)) := by
  induction ps generalizing ch k with
  | nil => cases hp
  | cons q qs ih =>
    cases k with
    | zero => cases hy; cases hp; rfl
    | succ k => exact ih hy hp

/-- `P_k = Dec(C_k) xor C_{k-1}` with `C_{-1}` the chain value (41_cbc_block_ops.md R83). -/
theorem getElem?_cbcDecStream (dec : Block → Block) (ch : Block) (ys : List Block) (k : Nat) :
    (cbcDecStream dec ch ys)[k]? = ys[k]?.bind fun x => (ch :: ys)[k]?.map (xorBlock (dec x)) := by
  induction ys generalizing ch k with
  | nil => rfl
  | cons y ys ih =>
    cases k with
    | zero => rfl
    | succ k => exact ih y k

theorem length_cbcEncStream (enc : Block → Block) (ch : Block) (ps : List Block) :
    (cbcEncStream enc ch ps).length = ps.length := by
  induction ps generalizing ch with
  | nil => rfl
  | cons p ps ih => exact congrArg (· + 1) (ih _)

theorem length_srcBlocks (s : State) : (srcBlocks s).length = blockCount s := length_blocksAt ..

/-! ### Propagation when encrypting -/

/-- Streams that agree before block `i` meet it with the same chain value. -/
theorem cbcEncStream_agree_before {enc : Block → Block} {ch : Block} {xs ys : List Block} {i : Nat} (hi : i ≤ xs.length)
    (h : ∀ k < i, xs[k]? = ys[k]?) : (ch :: cbcEncStream enc ch xs)[i]? = (ch :: cbcEncStream enc ch ys)[i]? := by
  induction i with
  | zero => rfl
  | succ i ih =>
    have hprev := ih (by omega) fun k hk => h k (by omega)
    have hx : xs[i]? = some xs[i] := List.getElem?_eq_getElem hi
    obtain ⟨y, hy⟩ : ∃ y, (ch :: cbcEncStream enc ch xs)[i]? = some y :=
      ⟨_, List.getElem?_eq_getElem (by simp only [List.length_cons, length_cbcEncStream]; omega)⟩
    exact (getElem?_cbcEncStream hy hx).trans
      (getElem?_cbcEncStream (hprev.symm.trans hy) ((h i (by omega)).symm.trans hx)).symm

/-- Streams that differ in block `i` alone give other ciphertext from there on: by the block itself in block `i`, by the chain value
after it (41_cbc_block_ops.md R85). -/
theorem cbcEncStream_differ_from {enc : Block → Block} (hinj : enc.Injective) {ch : Block} {xs ys : List Block} {i k : Nat}
    (hlen : xs.length = ys.length) (hne : xs[i]? ≠ ys[i]?) (hother : ∀ j, j ≠ i → xs[j]? = ys[j]?) (hik : i ≤ k)
    (hk : k < xs.length) : (cbcEncStream enc ch xs)[k]? ≠ (cbcEncStream enc ch ys)[k]? := by
  induction k, hik using Nat.le_induction with
  | base =>
    obtain ⟨y, hy⟩ : ∃ y, (ch :: cbcEncStream enc ch xs)[i]? = some y :=
      ⟨_, List.getElem?_eq_getElem (by simp only [List.length_cons, length_cbcEncStream]; omega)⟩
    have hy' := (cbcEncStream_agree_before hk.le fun j hj => hother j hj.ne).symm.trans hy
    have hx := List.getElem?_eq_getElem hk
    have hx' := List.getElem?_eq_getElem (hlen ▸ hk)
    rw [getElem?_cbcEncStream hy hx, getElem?_cbcEncStream hy' hx']
    rw [hx, hx'] at hne
    exact fun h => hne (congrArg some (xorBlock_right_injective (hinj (Option.some.inj h))))
  | succ k hik ih =>
    have hprev := ih (by omega)
    have hx := List.getElem?_eq_getElem hk
    have hx' := (hother (k + 1) (by omega)).symm.trans hx
    have hc := List.getElem?_eq_getElem (l := cbcEncStream enc ch xs) (i := k) (by rw [length_cbcEncStream]; omega)
    have hc' := List.getElem?_eq_getElem (l := cbcEncStream enc ch ys) (i := k) (by rw [length_cbcEncStream]; omega)
    rw [getElem?_cbcEncStream hc hx, getElem?_cbcEncStream hc' hx']
    rw [hc, hc'] at hprev
    intro h
    have hxor := hinj (Option.some.inj h)
    rw [xorBlock_comm, xorBlock_comm _ xs[k + 1]] at hxor
    exact hprev (congrArg some (xorBlock_right_injective hxor))

/-- `Enc` is injective, by `PRIM_INV` (00_scope.md R7). -/
theorem given_enc_injective : Function.Injective Config.given.enc := Function.LeftInverse.injective Config.given.dec_enc

/-- `Dec` is injective, by `PRIM_PERM` (00_scope.md R7). -/
theorem given_dec_injective : Function.Injective Config.given.dec := Function.LeftInverse.injective Config.given.enc_dec

/-- Settles O36. -/
theorem cbcEncryptPropagation : Obligations.CbcEncryptPropagation := by
  intro s s' iv i hr hr' hm hd hm' hd' hch hch' hcount hi hne hother
  obtain ⟨t, hexec, hdst, -⟩ := exec_crypt_cbc_encrypt hr hm hch hd
  obtain ⟨t', hexec', hdst', -⟩ := exec_crypt_cbc_encrypt hr' hm' hch' hd'
  have hlen : (srcBlocks s).length = (srcBlocks s').length := by rw [length_srcBlocks, length_srcBlocks, hcount]
  refine ⟨t, t', hexec, hexec', fun k hk => ?_⟩
  rw [hdst, hdst']
  rw [← length_srcBlocks] at hk
  refine ⟨fun hki => ?_, fun hik => cbcEncStream_differ_from given_enc_injective hlen hne hother hik hk⟩
  have hagree : ∀ j < k + 1, (srcBlocks s)[j]? = (srcBlocks s')[j]? := fun j hj => hother j (by omega)
  exact cbcEncStream_agree_before (i := k + 1) hk hagree

/-! ### Propagation when decrypting -/

/-- Two blocks masked by one block differ as they do without it. -/
theorem xorBlock_xorBlock_left (m x y : Block) : xorBlock (xorBlock m x) (xorBlock m y) = xorBlock x y := by
  refine Vector.ext fun j hj => ?_
  simp only [getElem_xorBlock _ _ _ hj]
  rw [BitVec.xor_comm m[j] x[j], BitVec.xor_assoc, ← BitVec.xor_assoc m[j], BitVec.xor_self, BitVec.zero_xor]

section
variable {dec : Block → Block} {ch x x' : Block} {xs ys : List Block} {i : Nat} (hx : xs[i]? = some x) (hx' : ys[i]? = some x')
  (hother : ∀ k, k ≠ i → xs[k]? = ys[k]?)

include hother in
/-- A plaintext block is untouched by another ciphertext block than its own and the one before (41_cbc_block_ops.md R85). -/
theorem cbcDecStream_agree_elsewhere {k : Nat} (hk : k ≠ i) (hk' : k ≠ i + 1) :
    (cbcDecStream dec ch xs)[k]? = (cbcDecStream dec ch ys)[k]? := by
  rw [getElem?_cbcDecStream, getElem?_cbcDecStream, hother k hk]
  cases k with
  | zero => rfl
  | succ k => rw [List.getElem?_cons_succ, List.getElem?_cons_succ, hother k (by omega)]

include hx hx' hother

theorem cbcDecStream_differ_at (hinj : dec.Injective) (hne : x ≠ x') :
    (cbcDecStream dec ch xs)[i]? ≠ (cbcDecStream dec ch ys)[i]? := by
  have hprev : (ch :: xs)[i]? = (ch :: ys)[i]? := by
    cases i with
    | zero => rfl
    | succ i => exact hother i (by omega)
  obtain ⟨hi, -⟩ := List.getElem?_eq_some_iff.1 hx
  obtain ⟨y, hy⟩ : ∃ y, (ch :: xs)[i]? = some y := ⟨_, List.getElem?_eq_getElem (by rw [List.length_cons]; omega)⟩
  rw [getElem?_cbcDecStream, getElem?_cbcDecStream, ← hprev, hx, hx', hy]
  intro h
  have hxor : xorBlock (dec x) y = xorBlock (dec x') y := Option.some.inj h
  rw [xorBlock_comm, xorBlock_comm _ y] at hxor
  exact hne (hinj (xorBlock_right_injective hxor))

/-- In the block after it a change of a ciphertext block shows as it is. -/
theorem cbcDecStream_differ_after (hi : i + 1 < xs.length) :
    ∃ p p', (cbcDecStream dec ch xs)[i + 1]? = some p ∧ (cbcDecStream dec ch ys)[i + 1]? = some p' ∧
      xorBlock p p' = xorBlock x x' := by
  have hz := List.getElem?_eq_getElem hi
  refine ⟨xorBlock (dec xs[i + 1]) x, xorBlock (dec xs[i + 1]) x', ?_, ?_, xorBlock_xorBlock_left ..⟩
  · rw [getElem?_cbcDecStream, List.getElem?_cons_succ, hx, hz]
    rfl
  · rw [getElem?_cbcDecStream, List.getElem?_cons_succ, hx', ← hother (i + 1) (by omega), hz]
    rfl

end

/-- CHAIN after a stream is its block `i` when that is the last (41_cbc_block_ops.md R79). -/
theorem lastBlock_of_getElem? {ch : Option Block} {x : Block} {xs : List Block} {i : Nat} (hx : xs[i]? = some x)
    (hi : i + 1 = xs.length) : lastBlock ch xs = some x := by
  induction xs generalizing ch i with
  | nil => cases hx
  | cons y ys ih =>
    cases i with
    | zero =>
      obtain rfl : ys = [] := List.eq_nil_of_length_eq_zero (Nat.succ.inj hi).symm
      exact hx
    | succ i => exact ih hx (Nat.succ.inj hi)

/-- Settles O37. -/
theorem cbcDecryptPropagation : Obligations.CbcDecryptPropagation := by
  intro s s' iv x x' i hr hr' hm hd hm' hd' hch hch' hcount hx hx' hne hother
  obtain ⟨t, hexec, hdst, hchain⟩ := exec_crypt_cbc_decrypt hr hm hch hd
  obtain ⟨t', hexec', hdst', hchain'⟩ := exec_crypt_cbc_decrypt hr' hm' hch' hd'
  refine ⟨t, t', hexec, hexec', ?_⟩
  rw [hdst, hdst', hchain, hchain', ← length_srcBlocks]
  refine ⟨cbcDecStream_differ_at hx hx' hother given_dec_injective hne, cbcDecStream_differ_after hx hx' hother,
    fun k => cbcDecStream_agree_elsewhere hother, fun hi => ?_⟩
  have hi' : i + 1 = (srcBlocks s').length := by rw [hi, length_srcBlocks, length_srcBlocks, hcount]
  rw [lastBlock_of_getElem? hx hi, lastBlock_of_getElem? hx' hi']
  exact fun h => hne (Option.some.inj h)

end Sys2Proof.Machine
end

section
/-! SUPPORT. The finer level of a CRYPT (41_cbc_block_ops.md R81): each phase does at that level what its part of the command does in
one step, so a walk of the phases ends as the command does; with the statement about it. -/

namespace Sys2Proof.Machine

/-! ### Walks -/

/-- The state `s` of the one-step level as it stands at the finer level, in the middle of a CRYPT: STATE is BUSY and `q` is due. -/
def State.walking (q : Seq) (s : State) : State := { s with status := statusBusy s.status, seq := some q }

/-- From a state in the middle of a CRYPT the phases run, one at least, and end in the outcome `o`; every state on the way is in the
middle of a CRYPT, with `rest` as the host's queue. -/
inductive Walks (c : Collaborators) (rest : List HostOp) : State → Result → Prop
  | last {s : State} {q : Seq} {o : Result} (host : s.host = rest) (h : phaseStep c q (s.walking q) = o) :
    Walks c rest (s.walking q) o
  | more {s v : State} {q : Seq} {o : Result} (host : s.host = rest) (h : phaseStep c q (s.walking q) = .next v)
    (w : Walks c rest v o) : Walks c rest (s.walking q) o

theorem run_one (M : Host.Core) (s : M.State) : M.run 1 s = M.step s := by
  rw [Host.Core.run]
  cases M.step s <;> rfl

theorem run_succ_of_next {M : Host.Core} {s t : M.State} (h : M.step s = .next t) (k : Nat) :
    M.run (k + 1) s = M.run k t := by
  rw [Host.Core.run, h]

/-- A walk is a run of the machine, BUSY and with the host's queue waiting until its last step. -/
theorem Walks.run {rest : List HostOp} {u : State} {o : Result} (h : Walks Config.given.toCollaborators rest u o) :
    ∃ k, core.run k u = o ∧
      ∀ j < k, ∃ v : State, core.run j u = .next v ∧ statusState v.status = stateBusy ∧ v.host = rest := by
  induction h with
  | @last s q o host h =>
    refine ⟨1, (run_one core _).trans ((step_busy rfl).trans h), fun j hj => ?_⟩
    obtain rfl : j = 0 := by omega
    exact ⟨_, rfl, statusState_statusBusy _, host⟩
  | @more s v q o host h w ih =>
    obtain ⟨k, hrun, hbusy⟩ := ih
    have hstep := run_succ_of_next (M := core) ((step_busy rfl).trans h)
    refine ⟨k + 1, (hstep k).trans hrun, fun j hj => ?_⟩
    cases j with
    | zero => exact ⟨_, rfl, statusState_statusBusy _, host⟩
    | succ j => rw [hstep]; exact hbusy j (by omega)

/-- A walk past a phase that does what `o` does at the one-step level. -/
theorem Walks.phase {c : Collaborators} {rest : List HostOp} {s : State} {q q' : Seq} {o : Result} {f : State → Result}
    (hh : s.host = rest) (hphase : phaseStep c q (s.walking q) = andThen o fun t => .next (t.walking q'))
    (h : ∀ t, o = .next t → Walks c rest (t.walking q') (f t)) : Walks c rest (s.walking q) (andThen o f) := by
  cases o with
  | next t => exact .more hh hphase (h t rfl)
  | fault r => exact .last hh hphase
  | refused r => exact .last hh hphase

/-! ### What each phase does -/

/-- The guard of CRYPT's ranges lets through or stops, whatever comes after. -/
theorem andThen_withCryptRanges (s : State) (f : State → Result) :
    andThen (withCryptRanges s (.next s)) f = withCryptRanges s (f s) := by
  unfold withCryptRanges withRange
  split_ifs <;> rfl

/-- The phase in which block `i` starts, or DONE when the blocks before it were all. -/
def phaseOfBlock (i : Nat) (s : State) : Phase := if i < blockCount s then firstPhase s else .done .ok

theorem phaseOfBlock_of_lt {i : Nat} {s : State} (h : i < blockCount s) : phaseOfBlock i s = firstPhase s := if_pos h

theorem phaseOfBlock_of_le {i : Nat} {s : State} (h : blockCount s ≤ i) : phaseOfBlock i s = .done .ok :=
  if_neg (Nat.not_lt.2 h)

section
variable (c : Collaborators) (s : State) (s0 : BitVec 2) (i j : Nat)

theorem phaseStep_check_fails {code : Code} (h : cryptCheck s0 s = some code) :
    phaseStep c ⟨.check, s0, i, j⟩ (s.walking ⟨.check, s0, i, j⟩) = .next (s.walking ⟨.done code, s0, i, j⟩) := by
  change phaseCheck _ _ = _
  have h' : cryptCheck s0 (s.walking ⟨.check, s0, i, j⟩) = some code := h
  rw [phaseCheck, h']
  rfl

theorem phaseStep_check_passes (h : cryptCheck s0 s = none) :
    phaseStep c ⟨.check, s0, 0, j⟩ (s.walking ⟨.check, s0, 0, j⟩) =
      andThen (withCryptRanges s (.next s)) fun t => .next (t.walking ⟨phaseOfBlock 0 s, s0, 0, j⟩) := by
  change phaseCheck _ _ = _
  have h' : cryptCheck s0 (s.walking ⟨.check, s0, 0, j⟩) = none := h
  rw [phaseCheck, h', andThen_withCryptRanges]
  change withCryptRanges s (.next (if blockCount s = 0 then _ else _)) = withCryptRanges s _
  by_cases hn : blockCount s = 0
  · rw [if_pos hn, phaseOfBlock_of_le hn.le]
    rfl
  · rw [if_neg hn, phaseOfBlock_of_lt (Nat.pos_of_ne_zero hn)]
    rfl

theorem phaseStep_xor :
    phaseStep c ⟨.xor, s0, i, j⟩ (s.walking ⟨.xor, s0, i, j⟩) =
      andThen (cbcEncXor c (srcBlockAddr s i) s) fun t => .next (t.walking ⟨.cipher, s0, i, j⟩) := rfl

theorem phaseStep_cipher_encrypt (hd : cfgDir s.cfg = .encrypt) :
    phaseStep c ⟨.cipher, s0, i, j⟩ (s.walking ⟨.cipher, s0, i, j⟩) =
      andThen (cbcEncCipher c s) fun t => .next (t.walking ⟨.store, s0, i, j⟩) := by
  change phaseCipher c _ _ = _
  have hd' : cfgDir (s.walking ⟨.cipher, s0, i, j⟩).cfg = .encrypt := hd
  rw [phaseCipher, hd']
  rfl

theorem phaseStep_store :
    phaseStep c ⟨.store, s0, i, j⟩ (s.walking ⟨.store, s0, i, j⟩) =
      andThen (cbcEncStore c (dstBlockAddr s i) s) fun t => .next (t.walking ⟨.next, s0, i, j⟩) := rfl

theorem phaseStep_cipher_decrypt (hd : cfgDir s.cfg = .decrypt) :
    phaseStep c ⟨.cipher, s0, i, j⟩ (s.walking ⟨.cipher, s0, i, j⟩) =
      andThen (cbcDecCipher c (srcBlockAddr s i) s) fun t => .next (t.walking ⟨.xorStore, s0, i, 0⟩) := by
  change phaseCipher c _ _ = _
  have hd' : cfgDir (s.walking ⟨.cipher, s0, i, j⟩).cfg = .decrypt := hd
  rw [phaseCipher, hd']
  rfl

theorem phaseStep_xorStore :
    phaseStep c ⟨.xorStore, s0, i, j⟩ (s.walking ⟨.xorStore, s0, i, j⟩) =
      andThen (cbcDecByte c (dstBlockAddr s i) (srcBlockAddr s i) j s) fun t =>
        .next (t.walking ⟨if j + 1 < Config.B then .xorStore else .next, s0, i, j + 1⟩) := by
  change andThen (cbcDecByte c (dstBlockAddr s i) (srcBlockAddr s i) j _) _ = _
  unfold cbcDecByte
  split <;> rfl

/-- Outside CBC one phase is one block operation (log 3). -/
theorem phaseStep_block (hm : cfgMode s.cfg ≠ some .cbc) :
    phaseStep c ⟨.block, s0, i, j⟩ (s.walking ⟨.block, s0, i, j⟩) =
      andThen (blockOp c (dstBlockAddr s i) (srcBlockAddr s i) s) fun t => .next (t.walking ⟨.next, s0, i, j⟩) := by
  change andThen (blockOp c (dstBlockAddr s i) (srcBlockAddr s i) (s.walking ⟨.block, s0, i, j⟩)) _ = _
  have hcfg : (s.walking ⟨.block, s0, i, j⟩).cfg = s.cfg := rfl
  unfold blockOp
  rw [hcfg]
  rcases hmode : cfgMode s.cfg with _ | _ | _ | k
  · rfl
  · cases cfgDir s.cfg <;> rfl
  · exact absurd hmode hm
  · rfl

theorem phaseStep_next :
    phaseStep c ⟨.next, s0, i, j⟩ (s.walking ⟨.next, s0, i, j⟩) =
      .next (s.walking ⟨phaseOfBlock (i + 1) s, s0, i + 1, j⟩) := rfl

/-- DONE completes the command from the STATE it started in (40_commands.md R61). -/
theorem phaseStep_done {s : State} (hq : s.seq = none) (code : Code) :
    phaseStep c ⟨.done code, statusState s.status, i, j⟩ (s.walking ⟨.done code, statusState s.status, i, j⟩) =
      .next (s.finish code) := by
  rw [State.finish, State.complete, ← statusAfter_statusBusy, hq]
  rfl

end

/-! ### The phases of a block -/

theorem HidOnly.host {s t : State} (h : HidOnly s t) : t.host = s.host := (congrArg State.host h :)
theorem HidOnly.srcBlockAddr {s t : State} (h : HidOnly s t) (i : Nat) : srcBlockAddr t i = srcBlockAddr s i :=
  (congrArg (Machine.srcBlockAddr · i) h :)
theorem HidOnly.blockCount {s t : State} (h : HidOnly s t) : blockCount t = blockCount s := (congrArg Machine.blockCount h :)

section
variable {c : Collaborators} {rest : List HostOp} {s : State} {s0 : BitVec 2} {i j : Nat} {f : State → Result}
  (hh : s.host = rest)
include hh

/-- XOR, CIPHER and STORE walk a CBC.ENC (41_cbc_block_ops.md R73). -/
theorem Walks.cbcEnc (hd : cfgDir s.cfg = .encrypt)
    (h : ∀ t, cbcEnc c (dstBlockAddr s i) (srcBlockAddr s i) s = .next t →
      Walks c rest (t.walking ⟨.next, s0, i, j⟩) (f t)) :
    Walks c rest (s.walking ⟨.xor, s0, i, j⟩) (andThen (cbcEnc c (dstBlockAddr s i) (srcBlockAddr s i) s) f) := by
  rw [Machine.cbcEnc, andThen_assoc]
  refine .phase hh (phaseStep_xor ..) fun t ht => ?_
  cases ht
  rw [andThen_assoc]
  refine .phase hh (phaseStep_cipher_encrypt _ _ _ _ _ hd) fun t ht => ?_
  cases ht
  exact .phase hh (phaseStep_store ..) fun t ht => h t ht

/-- XORSTORE walks the first `n` bytes of a CBC.DEC (41_cbc_block_ops.md R76). -/
theorem Walks.cbcDecBytes {d a n : Nat} (hd : dstBlockAddr s i = d) (ha : srcBlockAddr s i = a) (hn : n ≤ Config.B)
    (h : ∀ t, cbcDecBytes c d a n s = .next t →
      Walks c rest (t.walking ⟨if n < Config.B then .xorStore else .next, s0, i, n⟩) (f t)) :
    Walks c rest (s.walking ⟨.xorStore, s0, i, 0⟩) (andThen (cbcDecBytes c d a n s) f) := by
  induction n generalizing f with
  | zero => exact h s rfl
  | succ n ih =>
    rw [Machine.cbcDecBytes, andThen_assoc]
    refine ih (Nat.le_of_succ_le hn) fun t ht => ?_
    have hid : HidOnly s t := (cbcDecBytes_hidOnly ht).1
    have hphase := phaseStep_xorStore c t s0 i n
    rw [hid.dstBlockAddr, hid.srcBlockAddr, hd, ha] at hphase
    rw [if_pos (Nat.lt_of_succ_le hn)]
    exact .phase (hid.host.trans hh) hphase fun u hu => h u (andThen_eq_next.2 ⟨t, ht, hu⟩)

/-- CIPHER and the sixteen XORSTOREs walk a CBC.DEC (41_cbc_block_ops.md R74). -/
theorem Walks.cbcDec (hd : cfgDir s.cfg = .decrypt)
    (h : ∀ t, cbcDec c (dstBlockAddr s i) (srcBlockAddr s i) s = .next t →
      Walks c rest (t.walking ⟨.next, s0, i, Config.B⟩) (f t)) :
    Walks c rest (s.walking ⟨.cipher, s0, i, j⟩) (andThen (cbcDec c (dstBlockAddr s i) (srcBlockAddr s i) s) f) := by
  rw [Machine.cbcDec] at h ⊢
  rw [andThen_assoc]
  refine .phase hh (phaseStep_cipher_decrypt _ _ _ _ _ hd) fun t ht => ?_
  rw [ht, andThen_next] at h
  have hid : HidOnly s t := by cases ht; rfl
  refine .cbcDecBytes (hid.host.trans hh) (hid.dstBlockAddr i) (hid.srcBlockAddr i) le_rfl ?_
  rw [if_neg (lt_irrefl _)]
  exact h

/-- The phases from the first of a block walk the block operation that CFG selects (42_mode_selector.md R87). -/
theorem Walks.blockOp
    (h : ∀ t j', blockOp c (dstBlockAddr s i) (srcBlockAddr s i) s = .next t →
      Walks c rest (t.walking ⟨.next, s0, i, j'⟩) (f t)) :
    Walks c rest (s.walking ⟨firstPhase s, s0, i, j⟩)
      (andThen (blockOp c (dstBlockAddr s i) (srcBlockAddr s i) s) f) := by
  by_cases hm : cfgMode s.cfg = some .cbc
  · cases hd : cfgDir s.cfg with
    | encrypt =>
      have hop : Machine.blockOp c (dstBlockAddr s i) (srcBlockAddr s i) s =
          Machine.cbcEnc c (dstBlockAddr s i) (srcBlockAddr s i) s := by rw [Machine.blockOp, hm, hd]
      have hfirst : firstPhase s = .xor := by rw [firstPhase, hm, hd]
      rw [hop] at h ⊢
      rw [hfirst]
      exact .cbcEnc hh hd fun t => h t j
    | decrypt =>
      have hop : Machine.blockOp c (dstBlockAddr s i) (srcBlockAddr s i) s =
          Machine.cbcDec c (dstBlockAddr s i) (srcBlockAddr s i) s := by rw [Machine.blockOp, hm, hd]
      have hfirst : firstPhase s = .cipher := by rw [firstPhase, hm, hd]
      rw [hop] at h ⊢
      rw [hfirst]
      exact .cbcDec hh hd fun t => h t Config.B
  · have hfirst : firstPhase s = .block := by
      rw [firstPhase]
      split <;> trivial
    rw [hfirst]
    exact .phase hh (phaseStep_block _ _ _ _ _ hm) fun t => h t j

/-- The phases before block `n` walk the blocks before it (40_commands.md R70). -/
theorem Walks.cryptBlocks {n : Nat} (hn : n ≤ blockCount s)
    (h : ∀ t j', cryptBlocks c n s = .next t → Walks c rest (t.walking ⟨phaseOfBlock n t, s0, n, j'⟩) (f t)) :
    Walks c rest (s.walking ⟨phaseOfBlock 0 s, s0, 0, j⟩) (andThen (cryptBlocks c n s) f) := by
  induction n generalizing f with
  | zero => exact h s j rfl
  | succ n ih =>
    rw [Machine.cryptBlocks, andThen_assoc]
    refine ih (Nat.le_of_succ_le hn) fun t j' ht => ?_
    have hid : HidOnly s t := (cryptBlocks_hidOnly ht).1
    have hcount : n < blockCount t := by rw [hid.blockCount]; exact hn
    rw [phaseOfBlock_of_lt hcount]
    refine .blockOp (hid.host.trans hh) fun u j'' hu => ?_
    have hid' : HidOnly s u := hid.trans (blockOp_hidOnly hu).1
    exact .more (hid'.host.trans hh) (phaseStep_next ..) (h u j'' (andThen_eq_next.2 ⟨t, ht, hu⟩))

/-- The phases from CHECK to DONE walk a CRYPT (40_commands.md R69, R70). -/
theorem Walks.cryptWith (hq : s.seq = none) : Walks c rest s.startCrypt (cryptWith c s) := by
  change Walks c rest (s.walking ⟨.check, statusState s.status, 0, 0⟩) _
  rw [Machine.cryptWith]
  cases hcheck : cryptCheck (statusState s.status) s with
  | some code => exact .more hh (phaseStep_check_fails _ _ _ _ _ hcheck) (.last hh (phaseStep_done _ _ _ hq code))
  | none =>
    dsimp only
    rw [← andThen_withCryptRanges s fun _ => _]
    refine .phase hh (phaseStep_check_passes _ _ _ _ hcheck) fun t ht => ?_
    obtain ⟨-, ht⟩ := withCryptRanges_eq_next.1 ht
    cases ht
    refine .cryptBlocks hh le_rfl fun t j ht => ?_
    have hid : HidOnly s t := (cryptBlocks_hidOnly ht).1
    rw [phaseOfBlock_of_le hid.blockCount.le, ← hid.status]
    exact .last (hid.host.trans hh) (phaseStep_done _ _ _ (hid.seq.trans hq) .ok)

end

/-- Settles O46: a CRYPT starts and then walks its phases, any other word runs in its one step (70_reset_and_hazards.md R132). -/
theorem phasesRefineTheCommand : Obligations.PhasesRefineTheCommand := by
  intro s w rest hq hh
  have hwalk : step s = walkWord w { s with host := rest } := step_host hq hh
  have hwrite : step { s with host := .write 0 w :: rest } = runWord w { s with host := rest } :=
    step_write_cmd (s := { s with host := .write 0 w :: rest }) hq rfl
  rw [hwrite]
  by_cases hw : decode w = .instr .crypt
  · rw [walkWord, if_pos hw] at hwalk
    have hcrypt : Walks Config.given.toCollaborators rest { s with host := rest }.startCrypt
        (runWord w { s with host := rest }) := by
      rw [runWord_of_instr hw]
      exact .cryptWith rfl hq
    obtain ⟨k, hrun, hbusy⟩ := hcrypt.run
    have hstart := run_succ_of_next (M := core) hwalk
    refine ⟨k, (hstart k).trans hrun, fun j h0 hj => ?_⟩
    obtain ⟨j, rfl⟩ := Nat.exists_eq_succ_of_ne_zero h0.ne'
    rw [hstart]
    exact hbusy j hj
  · rw [walkWord, if_neg hw] at hwalk
    exact ⟨0, (run_one core s).trans hwalk, fun j h0 hj => absurd h0 (by omega)⟩

end Sys2Proof.Machine
end

section
/-! SUPPORT. The modes beside CBC (42_mode_selector.md R89 to R99): one block of ECB and of a given transform, what ECB and the given
transforms say of a stream, and which hidden registers a mode reads; with the statements about them. -/

namespace Sys2Proof.Machine

/-! ### One block -/

/-- Settles O21: in either direction ECB is one write of the destination block. -/
theorem ecbOneBlock : Obligations.EcbOneBlock := by
  intro c d a s hm
  constructor <;>
    exact ⟨_, rfl, Memory.readBlock_writeBlock hm d _, fun _ => Memory.read_writeBlock_of_outside hm _, rfl⟩

/-- Settles O22: EXT.BLOCK is one update of EXT and the destination block, and by `EXT_LEN` the transform's answer is a block. -/
theorem extOneBlock : Obligations.ExtOneBlock := by
  intro m d a s hm
  rw [extBlock_eq]
  have hlen := Config.given.ext_len m (s.extValue Config.given.toCollaborators) (s.mem.readBytes a Config.B)
  generalize Config.given.extXform m (s.extValue Config.given.toCollaborators) (s.mem.readBytes a Config.B) = r at hlen ⊢
  have hx : (blockOfBytes r.2).toList = r.2 := toList_blockOfBytes (hlen.trans (Memory.length_readBytes ..))
  generalize blockOfBytes r.2 = x at hx ⊢
  have hout : (s.mem.writeBlock d x).readBytes d Config.B = r.2 := by
    rw [← Memory.toList_readBlock, Memory.readBlock_writeBlock hm, hx]
  exact ⟨_, rfl, rfl, hout, fun _ => Memory.read_writeBlock_of_outside hm x, fun _ => State.extValue_of_some, rfl⟩

/-! ### ECB -/

/-- Settles O39: a destination block is the primitive of its source block alone. -/
theorem ecbHasNoMemory : Obligations.EcbHasNoMemory := by
  intro s s' i i' hr hr' hm hm' hdir hsrc
  obtain ⟨st, mem, hexec, hdst, -⟩ := cryptEcbCompletes s hr hm
  obtain ⟨st', mem', hexec', hdst', -⟩ := cryptEcbCompletes s' hr' hm'
  refine ⟨_, _, hexec, hexec', ?_⟩
  simp only [dstBlocks]
  rw [hdst, hdst', List.getElem?_map, List.getElem?_map, hsrc, hdir]

/-! ### The given transforms, over a stream -/

/-- A list of blocks is determined by its bytes. -/
theorem bytesOfBlocks_injective {xs ys : List Block} (h : bytesOfBlocks xs = bytesOfBlocks ys) : xs = ys := by
  have hlen : xs.length = ys.length := by
    have := congrArg List.length h
    rw [length_bytesOfBlocks, length_bytesOfBlocks] at this
    exact Nat.eq_of_mul_eq_mul_right (by decide) this
  induction xs generalizing ys with
  | nil => exact (List.length_eq_zero_iff.1 hlen.symm).symm
  | cons x xs ih =>
    cases ys with
    | nil => cases hlen
    | cons y ys =>
      obtain ⟨hx, hxs⟩ := List.append_inj h (by simp)
      rw [Vector.toList_inj.1 hx, ih hxs (Nat.succ.inj hlen)]

/-- In a mode with a given transform the output of a stream, empty or not, is the transform of its bytes. -/
theorem bytesOfBlocks_streamFn_ext (g : Given) (k : ExtMode) (d : Direction) (h : Hid) (xs : List Block) :
    bytesOfBlocks (streamFn g.toCollaborators (.ext k) d h xs).2 =
      (g.extXform k (h.ext.getD g.unwrittenExt) (bytesOfBlocks xs)).2 := by
  cases xs with
  | nil => exact (List.length_eq_zero_iff.1 (g.ext_len k _ [])).symm
  | cons x xs => exact (streamFn_ext g k d h x xs).2

/-- What a CRYPT leaves in its destination that runs a given transform from the value `e` of EXT. -/
theorem exec_crypt_ext {k : ExtMode} {e : ExtState} {s : State} (hr : CryptRuns s) (hm : cfgMode s.cfg = some (.ext k))
    (he : s.ext = some e) :
    ∃ t, exec .crypt s = .next t ∧
      bytesOfBlocks (dstBlocks s t) = (Config.given.extXform k e (bytesOfBlocks (srcBlocks s))).2 := by
  have ⟨_, _, hwf⟩ := hr
  refine ⟨_, cryptWith_eq_cryptResult hr fun _ => hm, ?_⟩
  rw [dstBlocks_cryptResult _ _ hwf, bytesOfBlocks_streamFn_ext, State.hid_ext, he, Option.getD_some]

/-- A transform from `e'` that undoes the one from `e` turns what a CRYPT from `e` writes back into its source, as one CRYPT. -/
theorem exec_crypt_ext_roundTrip {k : ExtMode} {e e' : ExtState} {s : State}
    (hinv : ∀ x, (Config.given.extXform k e' (Config.given.extXform k e x).2).2 = x) (hr : CryptRuns s)
    (hm : cfgMode s.cfg = some (.ext k)) (he : s.ext = some e) :
    ∃ t, exec .crypt s = .next t ∧
      ∀ u : State, CryptRuns u → cfgMode u.cfg = some (.ext k) → u.ext = some e' → srcBlocks u = dstBlocks s t →
        ∃ v, exec .crypt u = .next v ∧ dstBlocks u v = srcBlocks s := by
  obtain ⟨t, hexec, hdst⟩ := exec_crypt_ext hr hm he
  refine ⟨t, hexec, fun u hru hmu heu hsrc => ?_⟩
  obtain ⟨v, hexec', hdst'⟩ := exec_crypt_ext hru hmu heu
  rw [hsrc, hdst, hinv] at hdst'
  exact ⟨v, hexec', bytesOfBlocks_injective hdst'⟩

/-- Settles O40: decryption from an IV undoes encryption from it, by `EXT_INV`. -/
theorem cfbRoundTrip : Obligations.CfbRoundTrip := by
  intro s iv hr hm he _
  exact exec_crypt_ext_roundTrip (Config.given.ext_inv .cfb iv) hr hm he

/-! ### OFB and CTR ignore the direction -/

/-- A CONSTRUCT of a mode with a given transform that may read its IV (40_commands.md R65 to R67). -/
theorem exec_construct_ext (k : ExtMode) (d : Direction) {s : State} (h : IvOk s) :
    exec (constructInstr (.ext k) d) s =
      .next ((loadExt Config.given.toCollaborators k d (s.mem.readBlock (ivAddr s)) s).construct (.ext k) d) := by
  cases k <;> exact constructWithIv_eq_next.2 (.inr ⟨h, rfl⟩)

/-- Settles O41: `EXT_SYM` makes EXT the same in both directions, the blocks do not look at DIR, and `EXT_INV` between encryption
and decryption becomes the inverse law of any two directions. -/
theorem ofbAndCtrIgnoreDirection : Obligations.OfbAndCtrIgnoreDirection := by
  intro k d d' hk
  have hne : k ≠ .cfb := by rcases hk with rfl | rfl <;> decide
  have hsym (d₁ d₂ : Direction) (iv : Block) := Config.given.ext_sym k d₁ d₂ iv hne
  refine ⟨fun s t hiv ht => ?_, fun s t hcfg ht => ?_, fun s iv hr hm he _ => ?_⟩
  · rw [exec_construct_ext k d hiv, Host.Outcome.next.injEq] at ht
    subst ht
    refine ⟨rfl, ?_⟩
    rw [exec_construct_ext k d' hiv, loadExt, hsym d' d]
    rfl
  · exact cryptWith_withCfg (by rw [hcfg, cfgMode_cfgWord]) (cfgMode_cfgWord ..) ht
  · refine exec_crypt_ext_roundTrip (fun x => ?_) hr hm he
    rw [hsym d' .decrypt, hsym d .encrypt]
    exact Config.given.ext_inv k iv x

/-! ### What a mode does not use -/

/-- The hidden registers agree in the one that a mode reads, if it reads any (42_mode_selector.md R99). In CBC that is CHAIN alone: WORK
is written before it is read (41_cbc_block_ops.md R78). -/
def ReadsSame (m : Mode) (h h' : Hid) : Prop :=
  match m with
  | .ecb => True
  | .cbc => h'.chain = h.chain
  | .ext _ => h'.ext = h.ext

theorem blockFn_readsSame {c : Collaborators} {m : Mode} (d : Direction) {h h' : Hid} (hs : ReadsSame m h h') (x : Block) :
    ReadsSame m (blockFn c m d h x).1 (blockFn c m d h' x).1 ∧ (blockFn c m d h' x).2 = (blockFn c m d h x).2 := by
  cases m with
  | ecb => cases d <;> exact ⟨trivial, rfl⟩
  | cbc =>
    have hs : h'.chain = h.chain := hs
    cases d <;> simp [blockFn, ReadsSame, hs]
  | ext k =>
    have hs : h'.ext = h.ext := hs
    simp [blockFn, ReadsSame, hs]

theorem streamFn_readsSame {c : Collaborators} {m : Mode} (d : Direction) {h h' : Hid} (hs : ReadsSame m h h')
    (xs : List Block) :
    ReadsSame m (streamFn c m d h xs).1 (streamFn c m d h' xs).1 ∧ (streamFn c m d h' xs).2 = (streamFn c m d h xs).2 := by
  induction xs generalizing h h' with
  | nil => exact ⟨hs, rfl⟩
  | cons x xs ih =>
    obtain ⟨hs', hx⟩ := blockFn_readsSame (c := c) d hs x
    obtain ⟨hrest, hxs⟩ := ih hs'
    exact ⟨hrest, congrArg₂ List.cons hx hxs⟩

/-- A CRYPT with other contents of the registers its mode does not read differs in hidden registers alone, and not in the one the mode
reads; the registers of other modes keep those contents. -/
theorem cryptWith_leftovers {c : Collaborators} {m : Mode} {s t : State} {h : Hid} (hwf : s.mem.wf)
    (hmode : cfgMode s.cfg = some m) (hs : ReadsSame m s.hid h) (ht : cryptWith c s = .next t) :
    ∃ h', cryptWith c (s.withHid h s.mem) = .next (t.withHid h' t.mem) ∧ ReadsSame m t.hid h' ∧
      (m ≠ .cbc → h'.chain = h.chain ∧ h'.work = h.work) ∧ ((∀ k, m ≠ .ext k) → h'.ext = h.ext) := by
  have hrun : ∃ h', cryptWith c (s.withHid h s.mem) = .next (t.withHid h' t.mem) ∧ ReadsSame m t.hid h' := by
    obtain ⟨code, hc, rfl⟩ | ⟨hp, hranges, -⟩ := cryptWith_eq_next.1 ht
    · exact ⟨h, cryptWith_eq_next.2 (.inl ⟨code, hc, rfl⟩), hs⟩
    · rw [cryptWith_of_runs ⟨hp, hranges, hwf⟩ hmode, Host.Outcome.next.injEq] at ht
      subst ht
      obtain ⟨hhid, hout⟩ := streamFn_readsSame (c := c) (cfgDir s.cfg) hs (srcBlocks s)
      refine ⟨_, (cryptWith_of_runs (s := s.withHid h s.mem) ⟨hp, hranges, hwf⟩ hmode).trans ?_, hhid⟩
      rw [← hout]
      rfl
  obtain ⟨h', hexec, hread⟩ := hrun
  obtain ⟨_, -, hcbc, hext⟩ := cryptWith_hidOnly hexec
  rw [State.withHid_cfg, hmode] at hcbc hext
  exact ⟨h', hexec, hread, fun hm => hcbc (by simpa using hm), fun hm => hext (by simpa using hm)⟩

/-- Settles O42: in each mode, the register it reads is the same and the rest is kept, but for WORK in CBC. -/
theorem leftoversDoNotMatter : Obligations.LeftoversDoNotMatter := by
  intro s t hwf ht
  refine ⟨fun hm ch wk e => ?_, fun ⟨k, hm⟩ ch wk => ?_, fun hm wk e => ?_⟩
  · obtain ⟨⟨ch', wk', e'⟩, hexec, -, hcbc, hext⟩ := cryptWith_leftovers (h := ⟨ch, wk, e⟩) hwf hm trivial ht
    obtain ⟨rfl, rfl⟩ := hcbc (by decide)
    obtain rfl := hext (by simp)
    exact hexec
  · obtain ⟨⟨ch', wk', e'⟩, hexec, hread, hcbc, -⟩ := cryptWith_leftovers (h := ⟨ch, wk, s.ext⟩) hwf hm rfl ht
    obtain ⟨rfl, rfl⟩ := hcbc (by simp)
    obtain rfl : e' = t.ext := hread
    exact hexec
  · obtain ⟨⟨ch', wk', e'⟩, hexec, hread, -, hext⟩ := cryptWith_leftovers (h := ⟨s.chain, wk, e⟩) hwf hm rfl ht
    obtain rfl := hext (by simp)
    obtain rfl : ch' = t.chain := hread
    exact ⟨wk', hexec⟩

end Sys2Proof.Machine
end

section
/-! SUPPORT. The code with which a word completes, as a function of the word, STATUS and the ARG registers (60_exceptions.md R101 to
R110), and the statements about it. -/

namespace Sys2Proof.Machine

/-! ### The code of a failing word -/

/-- The check of a CONSTRUCT with an IV (60_exceptions.md R102). -/
def ivCheck (s : State) : Option Code := if s.arg1 = 16#32 then none else some .invalidKeyOrIV

/-- The code with which a command fails, if it does (60_exceptions.md R102 to R104, R106). -/
def execFailure (i : Instr) (s : State) : Option Code :=
  match i with
  | .constructEcb _ => none
  | .constructCbc _ => ivCheck s
  | .constructCfb _ => ivCheck s
  | .constructOfb _ => ivCheck s
  | .constructCtr _ => ivCheck s
  | .blksize => none
  | .crypt => cryptCheck (statusState s.status) s

/-- The code with which a word fails, if it does: decoding comes first (60_exceptions.md R109). -/
def wordFailure (w : Word) (s : State) : Option Code :=
  match decode w with
  | .instr i => execFailure i s
  | .reservedMode => some .unsupportedMode
  | .illegal => some .illegalCommand

theorem wordFailure_of_instr {w : Word} {i : Instr} (h : decode w = .instr i) (s : State) :
    wordFailure w s = execFailure i s := by
  rw [wordFailure, h]

theorem wordFailure_of_reservedMode {w : Word} (h : decode w = .reservedMode) (s : State) :
    wordFailure w s = some .unsupportedMode := by
  rw [wordFailure, h]

theorem wordFailure_of_illegal {w : Word} (h : decode w = .illegal) (s : State) :
    wordFailure w s = some .illegalCommand := by
  rw [wordFailure, h]

theorem wordFailure_withMem (w : Word) (s : State) (m : Memory) : wordFailure w { s with mem := m } = wordFailure w s := rfl

/-! ### A word that fails, and one that does not -/

theorem ivCheck_eq_some {s : State} {code : Code} : ivCheck s = some code ↔ code = .invalidKeyOrIV ∧ s.arg1 ≠ 16#32 := by
  rw [ivCheck]
  split <;> simp [*, eq_comm]

theorem constructWithIv_of_ivCheck {m : Mode} {d : Direction} {load : Block → State → State} {s : State} {code : Code}
    (hf : ivCheck s = some code) : constructWithIv m d load s = .next (s.finish code) := by
  obtain ⟨rfl, hlen⟩ := ivCheck_eq_some.1 hf
  exact constructWithIv_eq_next.2 (.inl ⟨hlen, rfl⟩)

theorem exec_of_failure {i : Instr} {s : State} {code : Code} (hf : execFailure i s = some code) :
    exec i s = .next (s.finish code) := by
  cases i with
  | constructEcb d => cases hf
  | constructCbc d => exact constructWithIv_of_ivCheck hf
  | constructCfb d => exact constructWithIv_of_ivCheck hf
  | constructOfb d => exact constructWithIv_of_ivCheck hf
  | constructCtr d => exact constructWithIv_of_ivCheck hf
  | blksize => cases hf
  | crypt => exact cryptWith_eq_next.2 (.inl ⟨code, hf, rfl⟩)

/-- A word that fails completes with its code, and does nothing else. -/
theorem runWord_of_failure {w : Word} {s : State} {code : Code} (hf : wordFailure w s = some code) :
    runWord w s = .next (s.finish code) := by
  cases hw : decode w with
  | instr i =>
    rw [wordFailure_of_instr hw] at hf
    rw [runWord_of_instr hw, exec_of_failure hf]
  | reservedMode =>
    rw [wordFailure_of_reservedMode hw] at hf
    cases hf
    exact runWord_of_reservedMode hw s
  | illegal =>
    rw [wordFailure_of_illegal hw] at hf
    cases hf
    exact runWord_of_illegal hw s

theorem constructWithIv_code_ok {m : Mode} {d : Direction} {load : Block → State → State} {s t : State}
    (hf : ivCheck s = none) (h : constructWithIv m d load s = .next t) : statusCode t.status = codeBits .ok := by
  obtain ⟨hlen, -⟩ | ⟨-, rfl⟩ := constructWithIv_eq_next.1 h
  · rw [ivCheck_eq_some.2 ⟨rfl, hlen⟩] at hf
    cases hf
  · exact statusCode_statusAfter ..

theorem exec_code_ok {i : Instr} {s t : State} (hf : execFailure i s = none) (h : exec i s = .next t) :
    statusCode t.status = codeBits .ok := by
  cases i with
  | constructEcb d => cases h; exact statusCode_statusAfter ..
  | constructCbc d => exact constructWithIv_code_ok hf h
  | constructCfb d => exact constructWithIv_code_ok hf h
  | constructOfb d => exact constructWithIv_code_ok hf h
  | constructCtr d => exact constructWithIv_code_ok hf h
  | blksize => cases h; exact statusCode_statusAfter ..
  | crypt =>
    obtain ⟨code, hc, -⟩ | ⟨-, -, u, -, rfl⟩ := cryptWith_eq_next.1 h
    · cases hf.symm.trans hc
    · exact statusCode_statusAfter ..

/-- A word that does not fail, if it completes, completes with code 0. -/
theorem runWord_code_ok {w : Word} {s t : State} (hf : wordFailure w s = none) (h : runWord w s = .next t) :
    statusCode t.status = codeBits .ok := by
  obtain ⟨i, hw, h⟩ | ⟨hw, -⟩ | ⟨hw, -⟩ := runWord_eq_next.1 h
  · exact exec_code_ok ((wordFailure_of_instr hw s).symm.trans hf) h
  · cases (wordFailure_of_reservedMode hw s).symm.trans hf
  · cases (wordFailure_of_illegal hw s).symm.trans hf

/-- CODE after a word that completes. -/
theorem runWord_code {w : Word} {s t : State} (h : runWord w s = .next t) :
    statusCode t.status = codeBits ((wordFailure w s).getD .ok) := by
  cases hf : wordFailure w s with
  | none => exact runWord_code_ok hf h
  | some code =>
    rw [runWord_of_failure hf] at h
    cases h
    exact statusCode_statusAfter ..

theorem runWord_code_iff {w : Word} {s t : State} (h : runWord w s = .next t) {code : Code} (hc : code ≠ .ok) :
    statusCode t.status = codeBits code ↔ wordFailure w s = some code := by
  rw [runWord_code h, codeBits_injective, Option.getD_eq_iff]
  simp [hc.symm]

/-! ### The causes of each code -/

/-- The command is a CONSTRUCT of a mode that uses the IV (40_commands.md R62). -/
def LoadsIv (i : Instr) : Prop :=
  ∃ d, i ∈ [Instr.constructCbc d, Instr.constructCfb d, Instr.constructOfb d, Instr.constructCtr d]

theorem execFailure_eq_some {i : Instr} {s : State} {code : Code} :
    execFailure i s = some code ↔
      (LoadsIv i ∧ ivCheck s = some code) ∨ (i = .crypt ∧ cryptCheck (statusState s.status) s = some code) := by
  cases i <;> simp [execFailure, LoadsIv]

/-- All the causes of a failure. -/
theorem wordFailure_eq_some {w : Word} {s : State} {code : Code} :
    wordFailure w s = some code ↔
      ((∃ i, decode w = .instr i ∧ LoadsIv i) ∧ ivCheck s = some code) ∨
        (decode w = .instr .crypt ∧ cryptCheck (statusState s.status) s = some code) ∨
        (decode w = .reservedMode ∧ code = .unsupportedMode) ∨
        (decode w = .illegal ∧ code = .illegalCommand) := by
  cases hw : decode w with
  | instr i => simp [wordFailure_of_instr hw, execFailure_eq_some]
  | reservedMode => simp [wordFailure_of_reservedMode hw, eq_comm]
  | illegal => simp [wordFailure_of_illegal hw, eq_comm]

/-- Settles O18: CODE is the code of the word's failure, and each nonzero code has one cause. -/
theorem completionCodesExactly : Obligations.CompletionCodesExactly := by
  intro w s t h
  have hcode (code : Code) (hc : code ≠ .ok) := (runWord_code_iff h hc).trans wordFailure_eq_some
  refine ⟨(hcode .invalidKeyOrIV nofun).trans ?_, (hcode .invalidLength nofun).trans ?_,
    (hcode .bufferTooSmall nofun).trans ?_, (hcode .unsupportedMode nofun).trans ?_, (hcode .notConstructed nofun).trans ?_,
    (hcode .illegalCommand nofun).trans ?_, runWord_code h ▸ codeBits_toNat_le _⟩
  -- In each of the six, the causes that carry another code drop out.
  all_goals simp [ivCheck_eq_some, cryptCheck_eq_some, LoadsIv, stateReady, srcLen, dstLen]

/-- Settles O30: the failure of a word is read off the word, STATUS and the ARG registers, and its completion writes STATUS alone. -/
theorem failureIsAtomic : Obligations.FailureIsAtomic := by
  intro w s t h ht
  cases hf : wordFailure w s with
  | none => exact absurd (runWord_code_ok hf h) ht
  | some code =>
    rw [runWord_of_failure hf, Host.Outcome.next.injEq] at h
    subst h
    have hc : code ≠ .ok := by
      rintro rfl
      exact ht (statusCode_statusAfter ..)
    exact ⟨rfl, ⟨code, hc, statusAfter_becomes ..⟩, (statusSticky_statusAfter ..).trans (if_neg hc),
      fun m => runWord_of_failure ((wordFailure_withMem w s m).trans hf)⟩

end Sys2Proof.Machine
end

section
/-! SUPPORT. An external reset during a command (70_reset_and_hazards.md R116): what memory holds after the first byte writes of a CRYPT,
what the abandoned command leaves, and the statement about it. -/

namespace Sys2Proof.Machine

/-- A run of bytes copied from another memory to the same addresses reads there as in that memory, elsewhere as before. -/
theorem Memory.read_writeBytes_readBytes {m : Memory} (h : m.wf) (m' : Memory) (a n b : Nat) :
    Memory.read (m.writeBytes a (m'.readBytes a n)) b =
      if a ≤ b ∧ b < a + n then m'.read b else m.read b := by
  rw [Memory.read_writeBytes h, Memory.length_readBytes]
  split
  next hb =>
    have hlen : b - a < (m'.readBytes a n).length := by rw [Memory.length_readBytes]; omega
    rw [List.getD_eq_getElem _ _ hlen, Memory.getElem_readBytes, Nat.add_sub_cancel' hb.1]
  next => rfl

/-- The first `k` bytes of the destination read as after the CRYPT, every other byte as before it (20_memory.md R40, R45). -/
theorem read_memAfterWrites {s : State} (h : s.mem.wf) (k : Nat) (t : State) (a : Nat) :
    (memAfterWrites k s t).read a =
      if dstAddr s ≤ a ∧ a < dstAddr s + min k (srcLen s) then t.mem.read a else s.mem.read a :=
  Memory.read_writeBytes_readBytes h ..

section
variable {w : Word} {k : Nat} {s u : State} (hu : runWord w s = .next u)
include hu

/-- A CRYPT that passes its checks is abandoned after its first `k` byte writes. -/
theorem resetDuring_of_crypt (hc : decode w = .instr .crypt ∧ CryptChecksPass s) :
    resetDuring w k s = .next (State.resetEngine { s with mem := memAfterWrites k s u }) := by
  obtain ⟨hw, hp⟩ := hc
  rw [resetDuring, hu, andThen_next, if_pos ⟨hw, cryptCheck_eq_none.2 hp⟩]

/-- Any other word writes no memory, so its abandonment is the reset alone. -/
theorem resetDuring_of_not_crypt (hc : ¬ (decode w = .instr .crypt ∧ CryptChecksPass s)) :
    resetDuring w k s = .next s.resetEngine := by
  rw [resetDuring, hu, andThen_next, if_neg fun ⟨hw, hn⟩ => hc ⟨hw, cryptCheck_eq_none.1 hn⟩]

end

/-- Settles O47, by whether the abandoned word is a CRYPT that passes its checks. -/
theorem resetDuringACommand : Obligations.ResetDuringACommand := by
  intro s u w k rest hq hh hwf hu
  rw [step_host hq hh]
  by_cases hc : decode w = .instr .crypt ∧ CryptChecksPass s
  · exact ⟨_, resetDuring_of_crypt hu hc, rfl, fun _ _ => read_memAfterWrites hwf k u, fun hn => absurd hc hn⟩
  · exact ⟨_, resetDuring_of_not_crypt hu hc, rfl, fun hw hp => absurd ⟨hw, hp⟩ hc, fun _ => rfl⟩

end Sys2Proof.Machine
end
